-- ==== Sys2Proof/Word.lean ====
section
/-! DEFINITION. The word types of the block: lanes, bytes, the state array, the command word, and the
finite sequences the data ports carry. -/

namespace Sys2Proof

/-- A byte of a message, a padded message or a digest (00_scope.md R18). -/
abbrev Byte := BitVec 8

/-- The 64-bit word of one lane, bit `z` of significance `z` (10_state.md R22). -/
abbrev Lane := BitVec 64

/-- The 1600 bits of a state array: bit `i` is `S[i]` (10_state.md R20, R21). -/
abbrev StateBits := BitVec 1600

/-- One rate-sized block: bit `i` is the block's bit `i` (00_scope.md Glossary, Block). -/
abbrev Block := BitVec 1088

/-- The 32-bit command word `CMD` (30_encoding.md R81). -/
abbrev CmdWord := BitVec 32

/-- What a data port carries during one transaction: nothing, a finite bit sequence (index 0 first,
00_scope.md R10) or a finite byte sequence (30_encoding.md R84 for DIN, R85 for DOUT). -/
inductive Port where
  | none
  | bits (v : List Bool)
  | bytes (m : List Byte)
  deriving DecidableEq, Repr

end Sys2Proof
end

