-- ==== Sys2Proof/Machine/Codec.lean ====
section
/-! DEFINITION. The bit and byte codec: bit sequences, bit vectors and byte sequences
(20_memory.md R54, R55). -/

namespace Sys2Proof.Machine

/-- The number `sum over i of v[i]·2^i` (00_scope.md R10). -/
def bitsToNat : List Bool → Nat
  | [] => 0
  | b :: v => b.toNat + 2 * bitsToNat v

/-- The `n`-bit vector whose bit `i` is `v[i]`. -/
def ofBits (n : Nat) (v : List Bool) : BitVec n := BitVec.ofNat n (bitsToNat v)

/-- The bits of a vector as a sequence, bit 0 first. -/
def toBits {n : Nat} (v : BitVec n) : List Bool := (List.range n).map v.getLsbD

/-- The `n` elements from index `i` on (`a[i..i+n)` of 00_scope.md R13). -/
def slice {α : Type} (i n : Nat) (a : List α) : List α := (a.drop i).take n

/-- `bytesToBits`: bit `i` of byte `k` becomes bit `8·k + i` (20_memory.md R54). -/
def bytesToBits (m : List Byte) : List Bool := m.flatMap toBits

/-- `bitsToBytes`: byte `k` is made of bits `8·k .. 8·k+7`, least significant first (20_memory.md R55).
Defined by the spec for lengths that are multiples of 8 only; no command passes another (log 12). -/
def bitsToBytes (b : List Bool) : List Byte :=
  (List.range (b.length / 8)).map fun k => ofBits 8 (slice (8 * k) 8 b)

end Sys2Proof.Machine
end

