-- ==== Sys2Proof/Syntax.lean ====
section
/-! DEFINITION. The commands of the block, one constructor per row of spec/opcode_table.json, with the
fields of the command word that each row uses (30_encoding.md R81, R87). -/

namespace Sys2Proof

/-- A command. IOTA and ROUND carry the five bits of RND (R82), SQUEEZE the sixteen bits of LEN (R83);
the data-in operand of a command is the port's, not the word's (R84). -/
inductive Instr where
  | init
  | loadState
  | readState
  | theta
  | rho
  | pi
  | chi
  | iota (r : BitVec 5)
  | round (r : BitVec 5)
  | permute
  | absorb
  | squeeze (n : BitVec 16)
  | pad
  | hash
  deriving DecidableEq, Repr

end Sys2Proof
end

