-- ==== Sys2Proof/WellFormed.lean ====
section
/-! DEFINITION. Which commands have an operand the spec admits. -/

namespace Sys2Proof

/-- The round indices the block has a constant for: "IOTA and ROUND accept `r` in 0..23 only"
(30_encoding.md R82). -/
def roundInRange (r : BitVec 5) : Bool := decide (r.toNat ≤ 23)

/-- A well-formed command: a round index is in 0..23 (R82); every length is legal (R83). An ill-formed
IOTA or ROUND still has a command word, and running it takes F_ROUND_RANGE (R88). -/
def Instr.wellFormed : Instr → Bool
  | .init => true
  | .loadState => true
  | .readState => true
  | .theta => true
  | .rho => true
  | .pi => true
  | .chi => true
  | .iota r => roundInRange r
  | .round r => roundInRange r
  | .permute => true
  | .absorb => true
  | .squeeze _ => true
  | .pad => true
  | .hash => true

end Sys2Proof
end

