-- ==== Sys2Proof/Decode.lean ====
section
/-! DEFINITION. From a command word to a command, or a rejection by name (30_encoding.md R81 to R88), and
the encoder beside it. -/

namespace Sys2Proof

/-- Why the decoder rejects a command word (30_encoding.md R86, R88): the opcode is not in the map, or a
bit that the opcode requires to be zero is 1. -/
inductive DecodeReject where
  | illegalOpcode
  | reservedField
  deriving DecidableEq, Repr

/-- `OP`, bits 7..0 (R81). -/
def opField (w : CmdWord) : BitVec 8 := w.extractLsb' 0 8

/-- `RND`, bits 12..8 (R81). -/
def rndField (w : CmdWord) : BitVec 5 := w.extractLsb' 8 5

/-- `LEN`, bits 31..16 (R81). -/
def lenField (w : CmdWord) : BitVec 16 := w.extractLsb' 16 16

/-- The opcode map (R87): the command that `OP` selects, with the operand fields taken from the word. -/
def selectByOpcode (w : CmdWord) : Option Instr :=
  match (opField w).toNat with
  | 0x01 => some .init
  | 0x02 => some .loadState
  | 0x03 => some .readState
  | 0x10 => some .theta
  | 0x11 => some .rho
  | 0x12 => some .pi
  | 0x13 => some .chi
  | 0x14 => some (.iota (rndField w))
  | 0x18 => some (.round (rndField w))
  | 0x20 => some .permute
  | 0x30 => some .absorb
  | 0x40 => some (.squeeze (lenField w))
  | 0x50 => some .pad
  | 0x60 => some .hash
  | _ => none

/-- The bits that must be zero for an opcode, the mask `mbz` of R86. -/
def mustBeZero (op : BitVec 8) : CmdWord :=
  if op = 0x14 ∨ op = 0x18 then 0xFFFFE000
  else if op = 0x40 then 0x0000FF00
  else 0xFFFFFF00

/-- The decoder: the first two checks of R86 in their order. The round index of IOTA and ROUND is checked
where the command runs (log 9), so every word of a row of the opcode table decodes to that row. -/
def decode (w : CmdWord) : Except DecodeReject Instr :=
  match selectByOpcode w with
  | none => .error .illegalOpcode
  | some i => if w &&& mustBeZero (opField w) ≠ 0 then .error .reservedField else .ok i

/-- A command word from its three fields, `CMD[7:0]`, `CMD[12:8]` and `CMD[31:16]`, RSV being zero (R81). -/
def commandWord (len : BitVec 16) (rnd : BitVec 5) (op : BitVec 8) : CmdWord :=
  BitVec.ofNat 32 (op.toNat + 2 ^ 8 * rnd.toNat + 2 ^ 16 * len.toNat)

/-- The word of a command (R87), with zero in every field the command does not use (R81). -/
def encode : Instr → CmdWord
  | .init => commandWord 0 0 0x01
  | .loadState => commandWord 0 0 0x02
  | .readState => commandWord 0 0 0x03
  | .theta => commandWord 0 0 0x10
  | .rho => commandWord 0 0 0x11
  | .pi => commandWord 0 0 0x12
  | .chi => commandWord 0 0 0x13
  | .iota r => commandWord 0 r 0x14
  | .round r => commandWord 0 r 0x18
  | .permute => commandWord 0 0 0x20
  | .absorb => commandWord 0 0 0x30
  | .squeeze n => commandWord n 0 0x40
  | .pad => commandWord 0 0 0x50
  | .hash => commandWord 0 0 0x60

/-- The command word whose bits, numbered as spec/opcode_table.json numbers them, are the low `nbits` bits
of `w`, every bit above them being zero. -/
def tableWord (nbits w : Nat) : CmdWord := BitVec.ofNat 32 (w % 2 ^ nbits)

/-- The command the decoder reads from a row's word; a word longer than 32 bits is no command, because
"every command is one 32-bit word" (R81). -/
def decodeTableWord (nbits w : Nat) : Option Instr :=
  if nbits ≤ 32 then (decode (tableWord nbits w)).toOption else none

end Sys2Proof
end

