-- ==== Sys2Proof/Config.lean ====
section
/-! DEFINITION. What is fixed for a given block and left open by the spec (00_scope.md R8). The parameters
of 00_scope.md R7, which the spec settles, are the widths of Word.lean and the numerals of the rules. -/

namespace Sys2Proof

/-- The reference name of the block; no command reads it (00_scope.md R3). -/
def referenceName : String := "KECCAK256-F1600-CORE"

/-- The parameters the spec leaves to the implementation (00_scope.md R8, decision D13): an optional
bound on the message length of PAD and HASH, by default none. -/
structure Config where
  maxMessageBytes : Option Nat := none
  deriving DecidableEq, Repr

end Sys2Proof
end

