-- ==== Sys2Proof/Machine/State.lean ====
section
/-! DEFINITION. The state of the block and of its ports, the reasons of a fault, and the state after
reset. -/

namespace Sys2Proof.Machine

/-- The four faults of the command decoder (60_exceptions.md R261), the only ones the block has.
Taking one is an effect the spec describes (R263), so a step that raises one answers a NEXT state with
FCODE holding its code; no step of this model answers `Outcome.fault` (log 11). -/
inductive Fault where
  /-- F_ILLEGAL_OPCODE, code 1: raised by any transaction whose opcode is not in the map. Safe: the word
  is given no other meaning. -/
  | illegalOpcode
  /-- F_RESERVED_FIELD, code 2: raised by any command with a 1 in a bit that must be zero. Safe. -/
  | reservedField
  /-- F_ROUND_RANGE, code 3: raised by IOTA and ROUND with a round index above 23. Safe. -/
  | roundRange
  /-- F_DATA_SHAPE, code 4: raised by any command whose DIN has not the required shape, and by PAD and
  HASH on a message longer than `maxMessageBytes`. Safe: nothing is cut or filled up. -/
  | dataShape
  deriving DecidableEq, Repr

/-- The reasons for which the model gives an instruction no meaning. -/
inductive Refusal where
  /-- Raised by an arm of `exec` that has no meaning yet; no arm of this model is such. Safe. -/
  | notModelled (mnemonic : String)
  deriving DecidableEq, Repr

/-- What the host sends in one transaction: the command word and the data-in operand (30_encoding.md R80). -/
structure Transaction where
  cmd : CmdWord
  din : Port
  deriving DecidableEq, Repr

/-- What the host can do to the block: send a transaction (30_encoding.md R80) or reset it
(70_reset_and_hazards.md R290). -/
inductive HostAction where
  | transact (t : Transaction)
  | reset
  deriving DecidableEq, Repr

/-- What the block answers to an accepted transaction: `STATUS` and `DOUT` (30_encoding.md R80). -/
structure Response where
  status : BitVec 8
  dout : Port
  deriving DecidableEq, Repr

/-- The block. `S` and `fcode` are all the state the spec gives it (10_state.md R35); `din` and `response`
are its ports (20_memory.md R51), `cfg` its fixed configuration (10_state.md R34) and `pending` the
host's actions still to come, oldest first (log 1, 4, 5, 6). -/
structure State where
  S : StateBits
  fcode : BitVec 8
  din : Port
  response : Option Response
  cfg : Config
  pending : List HostAction
  deriving DecidableEq, Repr

/-- The block right after reset: every state bit 0, FCODE 0 (10_state.md R35, 70_reset_and_hazards.md
R291), the ports empty, the configuration at its default and nothing sent yet. -/
def State.reset : State where
  S := 0
  fcode := 0
  din := .none
  response := none
  cfg := {}
  pending := []

end Sys2Proof.Machine
end

