-- ==== Sys2Proof/Machine/Flags.lean ====
section
/-! DEFINITION. The block has no flags or condition codes (10_state.md R28). This file holds its only
status: the codes of FCODE, the halted condition, and the STATUS answer. -/

namespace Sys2Proof.Machine

/-- The code a fault leaves in FCODE (60_exceptions.md R261). -/
def Fault.code : Fault → BitVec 8
  | .illegalOpcode => 1
  | .reservedField => 2
  | .roundRange => 3
  | .dataShape => 4

/-- The fault that a rejection of the decoder raises (30_encoding.md R86). -/
def rejectFault : DecodeReject → Fault
  | .illegalOpcode => .illegalOpcode
  | .reservedField => .reservedField

/-- Halted: FCODE is not 0 (60_exceptions.md R264). -/
def State.halted (s : State) : Bool := s.fcode != 0

/-- What a transaction that has run answers as STATUS: FCODE (30_encoding.md R80). -/
def State.status (s : State) : BitVec 8 := s.fcode

end Sys2Proof.Machine
end

