-- ==== Sys2Proof/Machine/Ops.lean ====
section
/-! DEFINITION. The operations that end a transaction: completing a command, taking a fault, and reset,
the one way out of a fault. -/

namespace Sys2Proof.Machine

/-- The state after a command that ran (30_encoding.md R80): `S` holds the command's result, STATUS is
FCODE, DOUT the command's data, and the port holds no operand any more (20_memory.md R51). -/
def State.complete (s : State) (A : StateBits) (dout : Port) : State :=
  { s with S := A, din := .none, response := some ⟨s.status, dout⟩ }

/-- Taking a fault (60_exceptions.md R263): `S` is not written, FCODE holds the code, STATUS is the code
and there is no DOUT. -/
def State.takeFault (s : State) (f : Fault) : State :=
  { s with fcode := f.code, din := .none, response := some ⟨f.code, .none⟩ }

/-- Reset (70_reset_and_hazards.md R290): `S` all zero, FCODE 0. It is no transaction, so it answers
nothing. The configuration is fixed (10_state.md R34) and the host's later actions stay. It is the only
way out of a fault; there is no return instruction (60_exceptions.md R264, R265). -/
def State.hostReset (s : State) : State :=
  { s with S := 0, fcode := 0, din := .none, response := none }

/-- No transaction is accepted: everything the spec calls state is kept and nothing is answered
(60_exceptions.md R264 for a halted block, R273 for an idle one). -/
def State.noTransaction (s : State) : State := { s with din := .none, response := none }

/-- The outcome of a command that ran. -/
def ran (s : State) (A : StateBits) (dout : Port) : Host.Outcome State Fault Refusal :=
  .next (s.complete A dout)

/-- `raise Fault(code)` (00_scope.md R14): the command ends with the fault and no other effect. -/
def raise (s : State) (f : Fault) : Host.Outcome State Fault Refusal := .next (s.takeFault f)

end Sys2Proof.Machine
end

