-- ==== Sys2Proof/Machine/Operands.lean ====
section
/-! DEFINITION. The operand forms: the round index of the command word (30_encoding.md R82) and the
required shapes of DIN (R84). Each check hands the operand on, or raises its fault. -/

namespace Sys2Proof.Machine

/-- The message length is admitted: at most `maxMessageBytes` when that parameter is set (R84). -/
def admitsLength (c : Config) (n : Nat) : Bool :=
  match c.maxMessageBytes with
  | none => true
  | some m => decide (n ≤ m)

/-- A command that takes no DIN (R84). -/
def withNoOperand (s : State) (k : Host.Outcome State Fault Refusal) : Host.Outcome State Fault Refusal :=
  match s.din with
  | .none => k
  | .bits _ => raise s .dataShape
  | .bytes _ => raise s .dataShape

/-- A command whose DIN is `bits(v)` with `len(v) = n` (R84). -/
def withBits (n : Nat) (s : State) (k : BitVec n → Host.Outcome State Fault Refusal) :
    Host.Outcome State Fault Refusal :=
  match s.din with
  | .none => raise s .dataShape
  | .bits v => if v.length = n then k (ofBits n v) else raise s .dataShape
  | .bytes _ => raise s .dataShape

/-- A command whose DIN is `bytes(m)`, no longer than the parameter allows (R84). -/
def withBytes (s : State) (k : List Byte → Host.Outcome State Fault Refusal) :
    Host.Outcome State Fault Refusal :=
  match s.din with
  | .none => raise s .dataShape
  | .bits _ => raise s .dataShape
  | .bytes m => if admitsLength s.cfg m.length then k m else raise s .dataShape

/-- The round index of IOTA and ROUND: `r` in 0..23, else F_ROUND_RANGE (R82); checked before DIN (R86). -/
def withRound (r : BitVec 5) (s : State) (k : Fin 24 → Host.Outcome State Fault Refusal) :
    Host.Outcome State Fault Refusal :=
  if h : r.toNat < 24 then k ⟨r.toNat, h⟩ else raise s .roundRange

end Sys2Proof.Machine
end

