-- ==== Sys2Proof/Machine/Padding.lean ====
section
/-! DEFINITION. The legacy pad10*1 padding (43_padding.md), on bits and on bytes, and PAD. -/

namespace Sys2Proof.Machine

/-- The number of zero bits padding puts between its two 1 bits, `(-L - 2) mod 1088` (R190, with the mod
of 00_scope.md R11). -/
def padZeros (L : Nat) : Nat := ((-(L : Int) - 2) % 1088).toNat

/-- `pad(m)` on bits (R190). -/
def pad (m : List Bool) : List Bool :=
  m ++ [true] ++ List.replicate (padZeros m.length) false ++ [true]

/-- The number of bytes padding adds to `n` bytes, 1..136 (R191). -/
def padByteCount (n : Nat) : Nat := 136 - n % 136

/-- The bytes padding adds when it adds `a` (R191): the suffix `0x01` and the final `0x80`, which share one
byte when only one is added. -/
def padSuffix (a : Nat) : List Byte :=
  if a = 1 then [0x81] else [0x01] ++ List.replicate (a - 2) 0x00 ++ [0x80]

/-- `padBytes(B)`, the byte-aligned form (R191). -/
def padBytes (m : List Byte) : List Byte := m ++ padSuffix (padByteCount m.length)

/-- The consecutive 1088-bit blocks of a padded sequence (R195). -/
def blocks (p : List Bool) : List Block :=
  (List.range (p.length / 1088)).map fun i => ofBits 1088 (slice (1088 * i) 1088 p)

/-- PAD: DOUT is the padded byte image of the message; `S` is neither read nor written (R193). -/
def execPad (s : State) : Host.Outcome State Fault Refusal :=
  withBytes s fun m => ran s s.S (.bytes (padBytes m))

end Sys2Proof.Machine
end

