-- ==== Sys2Proof/Machine/Lanes.lean ====
section
/-! DEFINITION. The views of a state array (10_state.md R21 to R24, 20_memory.md R61): coordinates and
lanes. Coordinates `x` and `y` are `Fin 5`, `z` is `Fin 64`, so that `x - 1`, `x + 2` and `z - 1` are
the mod 5 and mod 64 index arithmetic of 00_scope.md R11. -/

namespace Sys2Proof.Machine

/-- The linear index of bit `z` of lane `(x, y)` (10_state.md R21). -/
def bitIndex (x y : Fin 5) (z : Fin 64) : Nat := 64 * (5 * y.val + x.val) + z.val

/-- `A[x,y,z]` (10_state.md R21). -/
def bitAt (A : StateBits) (x y : Fin 5) (z : Fin 64) : Bool := A.getLsbD (bitIndex x y z)

/-- The lane register `x[k]`, the bits `64·k .. 64·k+63` (10_state.md R23). -/
def laneReg (A : StateBits) (k : Nat) : Lane := A.extractLsb' (64 * k) 64

/-- The word of lane `(x, y)`, lane register `5·y + x` (10_state.md R22, R23). -/
def lane (A : StateBits) (x y : Fin 5) : Lane := laneReg A (5 * y.val + x.val)

/-- The state array made of the first `n` lane registers `g 0 .. g (n-1)`, every other bit being 0. -/
def packLanes (g : Nat → Lane) : Nat → StateBits
  | 0 => 0
  | k + 1 => packLanes g k ||| ((g k).setWidth 1600 <<< (64 * k))

/-- The state array whose lane `(x, y)` is `f x y`; lane register `k` is lane
`(k mod 5, k div 5)` (10_state.md R23). -/
def ofLanes (f : Fin 5 → Fin 5 → Lane) : StateBits :=
  packLanes (fun k => f (Fin.ofNat 5 k) (Fin.ofNat 5 (k / 5))) 25

/-- `rotl64(v, n)`: bit `z` goes to bit `(z + n) mod 64` (00_scope.md R12). -/
def rotl64 (v : Lane) (n : Nat) : Lane := v.rotateLeft n

/-- The rate of a state array, its bits `0..1087` (10_state.md R24). -/
def rate (A : StateBits) : Block := A.setWidth 1088

end Sys2Proof.Machine
end

