-- ==== Sys2Proof/Machine/RoundSteps.lean ====
section
/-! DEFINITION. The five round steps (41_round_steps.md) as pure functions of a state array, in the
lane-word form the spec gives each, and the commands that apply them to `S`. -/

namespace Sys2Proof.Machine

/-- The parities of the columns `(x, z)`, as one lane per `x` (R131, R132). -/
def columnParity (A : StateBits) (x : Fin 5) : Lane :=
  lane A x 0 ^^^ lane A x 1 ^^^ lane A x 2 ^^^ lane A x 3 ^^^ lane A x 4

/-- `D[x] = C[(x-1) mod 5] ⊕ rotl64(C[(x+1) mod 5], 1)` (R132). -/
def thetaMix (A : StateBits) (x : Fin 5) : Lane :=
  columnParity A (x - 1) ^^^ rotl64 (columnParity A (x + 1)) 1

/-- theta (R131, R132). -/
def theta (A : StateBits) : StateBits := ofLanes fun x y => lane A x y ^^^ thetaMix A x

/-- The rotation offsets, one row for each `y` = 0..4 with its entries in the order of `x` (R133,
conflict C1 of 90_conflicts.md). -/
def offsetRows : Vector (Vector Nat 5) 5 :=
  #v[#v[0, 1, 62, 28, 27],
     #v[36, 44, 6, 55, 20],
     #v[3, 10, 43, 25, 39],
     #v[41, 45, 15, 21, 8],
     #v[18, 2, 61, 56, 14]]

/-- `offset(x, y)` (R133). -/
def offset (x y : Fin 5) : Nat := offsetRows[y][x]

/-- rho: every lane rotated by its offset (R134, R135). -/
def rho (A : StateBits) : StateBits := ofLanes fun x y => rotl64 (lane A x y) (offset x y)

/-- pi: lane `(x, y)` moves to `(y, 2x + 3y)`; so lane `(X, Y)` of the result is lane
`(X + 3Y, X)` of the argument (R136). -/
def pi (A : StateBits) : StateBits := ofLanes fun X Y => lane A (X + 3 * Y) X

/-- chi (R139, R140). -/
def chi (A : StateBits) : StateBits :=
  ofLanes fun x y => lane A x y ^^^ (~~~(lane A (x + 1) y) &&& lane A (x + 2) y)

/-- The round constants (R141). -/
def roundConstants : Vector Lane 24 :=
  (#v[0x0000000000000001, 0x0000000000008082, 0x800000000000808A, 0x8000000080008000,
      0x000000000000808B, 0x0000000080000001, 0x8000000080008081, 0x8000000000008009] : Vector Lane 8) ++
  (#v[0x000000000000008A, 0x0000000000000088, 0x0000000080008009, 0x000000008000000A,
      0x000000008000808B, 0x800000000000008B, 0x8000000000008089, 0x8000000000008003] : Vector Lane 8) ++
  (#v[0x8000000000008002, 0x8000000000000080, 0x000000000000800A, 0x800000008000000A,
      0x8000000080008081, 0x8000000000008080, 0x0000000080000001, 0x8000000080008008] : Vector Lane 8)

/-- `RC[r]` (R141). -/
def roundConstant (r : Fin 24) : Lane := roundConstants[r]

/-- iota: the round constant goes into lane `(0, 0)`, the other 24 lanes stay (R142). -/
def iota (r : Fin 24) (A : StateBits) : StateBits :=
  ofLanes fun x y => if x = 0 ∧ y = 0 then lane A x y ^^^ roundConstant r else lane A x y

/-- THETA: `S <- theta(S)` (R131). -/
def execTheta (s : State) : Host.Outcome State Fault Refusal :=
  withNoOperand s (ran s (theta s.S) .none)

/-- RHO: `S <- rho(S)` (R134). -/
def execRho (s : State) : Host.Outcome State Fault Refusal :=
  withNoOperand s (ran s (rho s.S) .none)

/-- PI: `S <- pi(S)` (R136). -/
def execPi (s : State) : Host.Outcome State Fault Refusal :=
  withNoOperand s (ran s (pi s.S) .none)

/-- CHI: `S <- chi(S)` (R139). -/
def execChi (s : State) : Host.Outcome State Fault Refusal :=
  withNoOperand s (ran s (chi s.S) .none)

/-- IOTA r: `S <- iota(r, S)` (R142). -/
def execIota (r : BitVec 5) (s : State) : Host.Outcome State Fault Refusal :=
  withRound r s fun k => withNoOperand s (ran s (iota k s.S) .none)

end Sys2Proof.Machine
end

