-- ==== Sys2Proof/Machine/Permutation.lean ====
section
/-! DEFINITION. The round and the 24-round permutation (42_permutation.md): ROUND, PERMUTE. -/

namespace Sys2Proof.Machine

/-- `round(r, A)`: theta, then rho, pi, chi, and iota with the round's constant (R170). -/
def keccakRound (r : Fin 24) (A : StateBits) : StateBits := iota r (chi (pi (rho (theta A))))

/-- `keccak_f(A)`: the rounds 0, 1, ..., 23 in order (R171, R172). -/
def keccakF (A : StateBits) : StateBits :=
  (List.finRange 24).foldl (fun T r => keccakRound r T) A

/-- ROUND r: `S <- round(r, S)` (R170). -/
def execRound (r : BitVec 5) (s : State) : Host.Outcome State Fault Refusal :=
  withRound r s fun k => withNoOperand s (ran s (keccakRound k s.S) .none)

/-- PERMUTE: `S <- keccak_f(S)` (R172). -/
def execPermute (s : State) : Host.Outcome State Fault Refusal :=
  withNoOperand s (ran s (keccakF s.S) .none)

end Sys2Proof.Machine
end

