-- ==== Sys2Proof/Machine/Sponge.lean ====
section
/-! DEFINITION. The sponge engines (44_sponge.md): ABSORB, SQUEEZE. -/

namespace Sys2Proof.Machine

/-- The block XORed into the rate, the capacity untouched: `T` of R210. -/
def xorRate (A : StateBits) (blk : Block) : StateBits := A ^^^ blk.setWidth 1600

/-- `absorb(A, blk)` (R210). -/
def absorb (A : StateBits) (blk : Block) : StateBits := keccakF (xorRate A blk)

/-- The loop of R212 with at most `k` permutations still to run: all `n` bits still wanted from this
state's rate when it has them, else the whole rate and then the rest from the permuted state. -/
def squeezeFrom : Nat → StateBits → Nat → List Bool
  | 0, T, n => (toBits (rate T)).take n
  | k + 1, T, n =>
    if n ≤ 1088 then (toBits (rate T)).take n
    else toBits (rate T) ++ squeezeFrom k (keccakF T) (n - 1088)

/-- `squeeze(A, n)` (R212); `n / 1088` permutations always suffice. -/
def squeeze (A : StateBits) (n : Nat) : List Bool := squeezeFrom (n / 1088) A n

/-- ABSORB: `S <- absorb(S, DIN)` (R210). -/
def execAbsorb (s : State) : Host.Outcome State Fault Refusal :=
  withBits 1088 s fun blk => ran s (absorb s.S blk) .none

/-- SQUEEZE n: DOUT is `squeeze(S, n)`; `S` stays (R212, R214). -/
def execSqueeze (n : BitVec 16) (s : State) : Host.Outcome State Fault Refusal :=
  withNoOperand s (ran s s.S (.bits (squeeze s.S n.toNat)))

end Sys2Proof.Machine
end

