-- ==== Sys2Proof/Machine/HashBlock.lean ====
section
/-! DEFINITION. The whole-message hash (45_hash.md): HASH. -/

namespace Sys2Proof.Machine

/-- HASH's private working state after the last block: from all zero, every block of the padded message
absorbed in order (R230, R232). -/
def absorbMessage (m : List Byte) : StateBits := (blocks (pad (bytesToBits m))).foldl absorb 0

/-- `computeHash(B)` (R230). -/
def computeHash (m : List Byte) : List Byte := bitsToBytes (squeeze (absorbMessage m) 256)

/-- HASH: DOUT is the digest; `S` is neither read nor written (R230, R232). -/
def execHash (s : State) : Host.Outcome State Fault Refusal :=
  withBytes s fun m => ran s s.S (.bytes (computeHash m))

end Sys2Proof.Machine
end

