-- ==== Sys2Proof/Machine/StateCommands.lean ====
section
/-! DEFINITION. The state commands (40_state_commands.md): INIT, LOAD_STATE, READ_STATE. -/

namespace Sys2Proof.Machine

/-- INIT: `S <- 0^1600` (R110). -/
def execInit (s : State) : Host.Outcome State Fault Refusal :=
  withNoOperand s (ran s 0 .none)

/-- LOAD_STATE: `S <- v`, bit `v[i]` landing at linear index `i` (R111). -/
def execLoadState (s : State) : Host.Outcome State Fault Refusal :=
  withBits 1600 s fun v => ran s v .none

/-- READ_STATE: DOUT is all 1600 bits of `S`, which stays (R112). -/
def execReadState (s : State) : Host.Outcome State Fault Refusal :=
  withNoOperand s (ran s s.S (.bits (toBits s.S)))

end Sys2Proof.Machine
end

