-- ==== Sys2Proof/Machine/Dispatch.lean ====
section
/-! DEFINITION. One arm per command: the command's meaning (30_encoding.md R87). -/

namespace Sys2Proof.Machine

def exec (i : Instr) (s : State) : Host.Outcome State Fault Refusal :=
  match i with
  | .init => Sys2Proof.Machine.execInit s
  | .loadState => Sys2Proof.Machine.execLoadState s
  | .readState => Sys2Proof.Machine.execReadState s
  | .theta => Sys2Proof.Machine.execTheta s
  | .rho => Sys2Proof.Machine.execRho s
  | .pi => Sys2Proof.Machine.execPi s
  | .chi => Sys2Proof.Machine.execChi s
  | .iota r => Sys2Proof.Machine.execIota r s
  | .round r => Sys2Proof.Machine.execRound r s
  | .permute => Sys2Proof.Machine.execPermute s
  | .absorb => Sys2Proof.Machine.execAbsorb s
  | .squeeze n => Sys2Proof.Machine.execSqueeze n s
  | .pad => Sys2Proof.Machine.execPad s
  | .hash => Sys2Proof.Machine.execHash s

end Sys2Proof.Machine
end

