-- ==== Sys2Proof/Machine/Transaction.lean ====
section
/-! DEFINITION. What the block does with the host's next action (30_encoding.md R80, R86;
70_reset_and_hazards.md R290). -/

namespace Sys2Proof.Machine

/-- A transaction that the block accepts: the operand stands in the port, and the command word is decoded
and run; a word the decoder rejects raises its fault (30_encoding.md R86). -/
def State.accept (s : State) (t : Transaction) : Host.Outcome State Fault Refusal :=
  match decode t.cmd with
  | .error e => raise { s with din := t.din } (rejectFault e)
  | .ok i => exec i { s with din := t.din }

/-- A transaction that the host sends: a halted block does not accept it (30_encoding.md R80,
60_exceptions.md R264; log 2). -/
def State.transact (s : State) (t : Transaction) : Host.Outcome State Fault Refusal :=
  if s.halted then .next s.noTransaction else s.accept t

/-- The host's next action, the rest of its actions staying; with none the block is idle
(60_exceptions.md R273; log 3). -/
def State.nextAction (s : State) : Host.Outcome State Fault Refusal :=
  match s.pending with
  | [] => .next s.noTransaction
  | .reset :: rest => .next { s with pending := rest }.hostReset
  | .transact t :: rest => { s with pending := rest }.transact t

/-- An operand of the shape that a command word needs (30_encoding.md R84), all of whose bits are 0 and
whose message is empty (log 8). -/
def zeroOperand (w : CmdWord) : Port :=
  match selectByOpcode w with
  | some .loadState => .bits (List.replicate 1600 false)
  | some .absorb => .bits (List.replicate 1088 false)
  | some .pad => .bytes []
  | some .hash => .bytes []
  | _ => .none

/-- The state in which the host's next action is to send the command word `w` with a zero operand. -/
def State.send (s : State) (w : CmdWord) : State :=
  { s with pending := .transact ⟨w, zeroOperand w⟩ :: s.pending }

end Sys2Proof.Machine
end

