-- ==== Sys2Proof/Machine/Step.lean ====
section
/-! DEFINITION. One step of the block: the host's next action. -/

namespace Sys2Proof.Machine

/-- One step is one host action, done whole (20_memory.md R64, R66). -/
def step (s : State) : Host.Outcome State Fault Refusal := s.nextAction

/-- The state in which the next step runs the command word `w` of `nbits` bits. The block fetches nothing
(10_state.md R27): the host sends each command, so the word becomes the host's next transaction. -/
def State.withFetchWord (s : State) (nbits w : Nat) : State := s.send (tableWord nbits w)

end Sys2Proof.Machine
end

