-- ==== Sys2Proof/Machine/Assembler.lean ====
section
/-! DEFINITION. The assembler lines of 30_encoding.md R90 and R91: their operands, the transactions each
stands for, and how each is written. -/

namespace Sys2Proof.Machine

/-- A byte operand of PAD, HASH and SPONGE (R90): ASCII text, bytes written in hexadecimal, or `k` zero
bytes. -/
inductive ByteOperand where
  | ascii (text : List Char)
  | hex (m : List Byte)
  | zeros (k : Nat)
  deriving DecidableEq, Repr

/-- The operand of ABSORB (R90): 17 rate words, or 136 bytes written in hexadecimal. -/
inductive BlockOperand where
  | words (w : Vector Lane 17)
  | hex (m : Vector Byte 136)
  deriving DecidableEq, Repr

/-- An assembler line: a command of R90 with its operands, or a pseudo-instruction of R91. -/
inductive AsmLine where
  | init
  | loadState (w : Vector Lane 25)
  | readState
  | theta
  | rho
  | pi
  | chi
  | iota (r : Fin 24)
  | round (r : Fin 24)
  | permute
  | absorb (blk : BlockOperand)
  | squeeze (n : BitVec 16)
  | pad (m : ByteOperand)
  | hash (m : ByteOperand)
  | steps (r : Fin 24)
  | rounds (a b : Fin 24)
  | sponge (m : ByteOperand) (n : BitVec 16)
  deriving DecidableEq, Repr

/-- The bytes an operand stands for: the ASCII code of each character in order, the bytes as written, or
zero bytes (R90). -/
def byteOperandBytes : ByteOperand → List Byte
  | .ascii text => text.map fun c => BitVec.ofNat 8 c.toNat
  | .hex m => m
  | .zeros k => List.replicate k 0

/-- The bits of lane words in order, `b[64k + z] = wk[z]` (R90). -/
def laneWordBits (w : List Lane) : List Bool := w.flatMap toBits

/-- The bits a block operand stands for (R90). -/
def blockOperandBits : BlockOperand → List Bool
  | .words w => laneWordBits w.toList
  | .hex m => bytesToBits m.toList

/-- The five bits of RND that hold a round index (R82). -/
def roundField (r : Fin 24) : BitVec 5 := BitVec.ofNat 5 r.val

/-- The transaction of a command with its operand. -/
def transaction (i : Instr) (d : Port) : Transaction := ⟨encode i, d⟩

/-- The transactions a line stands for, in order (R90, R91). -/
def expandLine : AsmLine → List Transaction
  | .init => [transaction .init .none]
  | .loadState w => [transaction .loadState (.bits (laneWordBits w.toList))]
  | .readState => [transaction .readState .none]
  | .theta => [transaction .theta .none]
  | .rho => [transaction .rho .none]
  | .pi => [transaction .pi .none]
  | .chi => [transaction .chi .none]
  | .iota r => [transaction (.iota (roundField r)) .none]
  | .round r => [transaction (.round (roundField r)) .none]
  | .permute => [transaction .permute .none]
  | .absorb blk => [transaction .absorb (.bits (blockOperandBits blk))]
  | .squeeze n => [transaction (.squeeze n) .none]
  | .pad m => [transaction .pad (.bytes (byteOperandBytes m))]
  | .hash m => [transaction .hash (.bytes (byteOperandBytes m))]
  | .steps r =>
    [transaction .theta .none, transaction .rho .none, transaction .pi .none, transaction .chi .none,
     transaction (.iota (roundField r)) .none]
  | .rounds a b =>
    ((List.finRange 24).filter fun r => a ≤ r && r ≤ b).map fun r => transaction (.round (roundField r)) .none
  | .sponge m n =>
    [transaction .init .none] ++
    (blocks (pad (bytesToBits (byteOperandBytes m)))).map
      (fun blk => transaction .absorb (.bits (toBits blk))) ++
    [transaction (.squeeze n) .none]

/-- `n` digits of a number in hexadecimal, most significant first (R90). -/
def hexDigits : Nat → Nat → String
  | 0, _ => ""
  | n + 1, v => hexDigits n (v / 16) ++ String.singleton (Nat.digitChar (v % 16))

/-- A lane word as the assembler writes it. -/
def laneText (w : Lane) : String := "0x" ++ hexDigits 16 w.toNat

/-- Lane words between braces, separated by commas (R90). -/
def laneListText (w : List Lane) : String :=
  String.singleton (Char.ofNat 0x7B) ++ String.intercalate ", " (w.map laneText) ++
    String.singleton (Char.ofNat 0x7D)

/-- Bytes written pairwise (R90). -/
def hexBytesText (m : List Byte) : String := "hex:" ++ String.join (m.map fun b => hexDigits 2 b.toNat)

/-- A byte operand as the assembler writes it (R90). -/
def byteOperandText : ByteOperand → String
  | .ascii text => "\"" ++ String.ofList text ++ "\""
  | .hex m => hexBytesText m
  | .zeros k => "zeros(" ++ toString k ++ ")"

/-- A block operand as the assembler writes it (R90). -/
def blockOperandText : BlockOperand → String
  | .words w => laneListText w.toList
  | .hex m => hexBytesText m.toList

/-- A line as the assembler writes it (R90, R91). -/
def lineText : AsmLine → String
  | .init => "INIT"
  | .loadState w => "LOAD_STATE " ++ laneListText w.toList
  | .readState => "READ_STATE"
  | .theta => "THETA"
  | .rho => "RHO"
  | .pi => "PI"
  | .chi => "CHI"
  | .iota r => "IOTA " ++ toString r.val
  | .round r => "ROUND " ++ toString r.val
  | .permute => "PERMUTE"
  | .absorb blk => "ABSORB " ++ blockOperandText blk
  | .squeeze n => "SQUEEZE " ++ toString n.toNat
  | .pad m => "PAD " ++ byteOperandText m
  | .hash m => "HASH " ++ byteOperandText m
  | .steps r => "STEPS " ++ toString r.val
  | .rounds a b => "ROUNDS " ++ toString a.val ++ ", " ++ toString b.val
  | .sponge m n => "SPONGE " ++ byteOperandText m ++ ", " ++ toString n.toNat

end Sys2Proof.Machine
end

