-- ==== Sys2Proof/Safety.lean ====
section
/-! DEFINITION. The terms the claims use: runs, the state the block is in between transactions, what it
means for a command to run, and the checks of 30_encoding.md R86 written on the command word itself. -/

namespace Sys2Proof.Machine

/-- `t` is the state `n` steps after `s`. -/
def After : Nat → State → State → Prop
  | 0, s, t => t = s
  | n + 1, s, t => ∃ u, step s = .next u ∧ After n u t

/-- What holds of the block between transactions, whatever was done to it: FCODE is 0 or one of the four
fault codes (10_state.md R26), nothing stands in the data-in port (20_memory.md R51), and an answer
carries FCODE as its STATUS (30_encoding.md R80) and data only when that is 0 (60_exceptions.md R263). -/
structure Inv (s : State) : Prop where
  fcode_legal : s.fcode = 0 ∨ s.fcode = 1 ∨ s.fcode = 2 ∨ s.fcode = 3 ∨ s.fcode = 4
  port_empty : s.din = .none
  status_is_fcode : ∀ r, s.response = some r → r.status = s.fcode
  fault_no_data : ∀ r, s.response = some r → r.status ≠ 0 → r.dout = .none

/-- A run of `n` steps is safe when no transaction of it has faulted: the block is not halted at its end
(a halt lasts, 60_exceptions.md R264). -/
def SafeRun (n : Nat) (s : State) : Prop := ∃ t, After n s t ∧ t.fcode = 0

/-- The command `i`, run at `s`, completes: `S` becomes `A`, STATUS is 0, DOUT is `dout`, the port is empty
again, and nothing else changes. -/
def Completes (i : Instr) (s : State) (A : StateBits) (dout : Port) : Prop :=
  exec i s = .next { s with S := A, din := .none, response := some ⟨0, dout⟩ }

/-- The command `i`, run at `s`, takes the fault with code `c` (60_exceptions.md R263): `S` is not written,
FCODE and STATUS are `c`, there is no DOUT, and nothing else changes. -/
def Faults (i : Instr) (s : State) (c : BitVec 8) : Prop :=
  exec i s = .next { s with fcode := c, din := .none, response := some ⟨c, .none⟩ }

/-- A DIN of `n` bits (30_encoding.md R84). -/
def IsBits (n : Nat) : Port → Prop
  | .bits v => v.length = n
  | .none => False
  | .bytes _ => False

/-- A DIN of bytes, no more than the parameter admits (30_encoding.md R84). -/
def IsMessage (c : Config) : Port → Prop
  | .bytes m => ∀ b, c.maxMessageBytes = some b → m.length ≤ b
  | .none => False
  | .bits _ => False

/-- The DIN shape that an opcode requires (30_encoding.md R84). -/
def ShapeOk (c : Config) (op : Nat) (d : Port) : Prop :=
  if op = 0x02 then IsBits 1600 d
  else if op = 0x30 then IsBits 1088 d
  else if op = 0x50 ∨ op = 0x60 then IsMessage c d
  else d = .none

/-- The opcodes of 30_encoding.md R87, as R86 lists them. -/
def legalOpcodes : List Nat :=
  [0x01, 0x02, 0x03, 0x10, 0x11, 0x12, 0x13, 0x14, 0x18, 0x20, 0x30, 0x40, 0x50, 0x60]

/-- The word's bits that R86 requires to be zero, as a number: those at place 13 and above for IOTA and
ROUND, at places 8 to 15 for SQUEEZE, at place 8 and above for every other opcode. -/
def reservedPart (op w : Nat) : Nat :=
  if op = 0x14 ∨ op = 0x18 then w / 2 ^ 13
  else if op = 0x40 then w / 2 ^ 8 % 2 ^ 8
  else w / 2 ^ 8

/-- The checks of 30_encoding.md R86 on the word `w` (as a number) and the operand `d`, in the order of
60_exceptions.md R262; `CheckResult c w d k` says that the first check to fail has code `k`, or that all
pass and `k` is 0. -/
def CheckResult (c : Config) (w : Nat) (d : Port) (k : BitVec 8) : Prop :=
  let op := w % 2 ^ 8
  if op ∉ legalOpcodes then k = 1
  else if reservedPart op w ≠ 0 then k = 2
  else if (op = 0x14 ∨ op = 0x18) ∧ 23 < w / 2 ^ 8 % 2 ^ 5 then k = 3
  else (ShapeOk c op d → k = 0) ∧ (¬ ShapeOk c op d → k = 4)

/-- The word `w` of an opcode with a nonzero reserved part is rejected as F_RESERVED_FIELD. -/
def RejectsReserved (op : Nat) : Prop :=
  ∀ w : CmdWord, w.toNat % 2 ^ 8 = op → reservedPart op w.toNat ≠ 0 → decode w = .error .reservedField

/-- The DOUT of a command that ran (30_encoding.md R85). -/
def DoutShape : Instr → Port → Prop
  | .init, d => d = .none
  | .loadState, d => d = .none
  | .readState, d => IsBits 1600 d
  | .theta, d => d = .none
  | .rho, d => d = .none
  | .pi, d => d = .none
  | .chi, d => d = .none
  | .iota _, d => d = .none
  | .round _, d => d = .none
  | .permute, d => d = .none
  | .absorb, d => d = .none
  | .squeeze n, d => IsBits n.toNat d
  | .pad, d => ∃ p, d = .bytes p ∧ 0 < p.length ∧ p.length % 136 = 0
  | .hash, d => ∃ p, d = .bytes p ∧ p.length = 32

/-- The commands that read `S` or nothing and write no state: READ_STATE, SQUEEZE, PAD, HASH
(20_memory.md R63). -/
def WritesNoState : Instr → Prop
  | .readState => True
  | .squeeze _ => True
  | .pad => True
  | .hash => True
  | .init => False
  | .loadState => False
  | .theta => False
  | .rho => False
  | .pi => False
  | .chi => False
  | .iota _ => False
  | .round _ => False
  | .permute => False
  | .absorb => False

end Sys2Proof.Machine
end

