-- ==== Sys2Proof/Certificates/Slice0/Obligations.lean ====
section
/-! DEFINITION. The statements for the provers: what the numbered rules of spec/ say the block does. -/

open Sys2Proof Sys2Proof.Machine

-- Reset, host actions and the step

/-- 10_state.md R35: the state after reset. -/
def Obligations.ResetValuesOfTheState : Prop :=
  (∀ i < 1600, State.reset.S.getLsbD i = false) ∧ (∀ k < 25, laneReg State.reset.S k = 0) ∧
  State.reset.fcode = 0 ∧ State.reset.halted = false

/-- 70_reset_and_hazards.md R290: reset, in every state, sets `S` to zero and FCODE to 0 and ends a halt;
it is no transaction and cannot fault. -/
def Obligations.HostResetClearsStateAndHalt : Prop :=
  ∀ (s : State) (rest : List HostAction), s.pending = .reset :: rest →
    ∃ t, step s = .next t ∧ t.S = 0 ∧ t.fcode = 0 ∧ t.halted = false ∧ t.cfg = s.cfg ∧ t.pending = rest

/-- 30_encoding.md R80: a step whose transaction a block that is not halted decodes to a command runs
that command, with the operand in the port and the host's later actions left. The queue of host actions is the
model's (log 1). -/
def Obligations.StepRunsTheDecodedCommand : Prop :=
  ∀ (s : State) (w : CmdWord) (d : Port) (rest : List HostAction) (i : Instr),
    s.fcode = 0 → s.pending = .transact ⟨w, d⟩ :: rest → decode w = .ok i →
    step s = exec i { s with din := d, pending := rest }

/-- 60_exceptions.md R264, by the model's choice of log 2: a transaction sent to a halted block goes
unanswered and leaves `S` and FCODE as they were. -/
def Obligations.HaltedBlockAnswersNoTransaction : Prop :=
  ∀ (s : State) (t : Transaction) (rest : List HostAction),
    s.fcode ≠ 0 → s.pending = .transact t :: rest →
    step s = .next { s with din := .none, response := none, pending := rest }

/-- 60_exceptions.md R273, by the model's choice of log 3: with no host action the block is idle and its
state is kept. -/
def Obligations.IdleBlockKeepsItsState : Prop :=
  ∀ s : State, s.pending = [] → step s = .next { s with din := .none, response := none }

/-- 60_exceptions.md R264: however many transactions are sent to it, a halted block keeps `S` and FCODE and
answers nothing, until a reset; and a reset ends the halt. -/
def Obligations.HaltLastsUntilReset : Prop :=
  (∀ (n : Nat) (s t : State), s.fcode ≠ 0 → HostAction.reset ∉ s.pending.take (n + 1) →
    After (n + 1) s t → t.S = s.S ∧ t.fcode = s.fcode ∧ t.response = none) ∧
  ∀ (s : State) (rest : List HostAction), s.fcode ≠ 0 → s.pending = .reset :: rest →
    ∃ t, step s = .next t ∧ t.fcode = 0 ∧ t.halted = false

/-- 10_state.md R26: a step that changes FCODE is a reset, or a fault, with a code of 1..4, of a block that
was not halted; and every answer carries FCODE as its STATUS. -/
def Obligations.FcodeIsWrittenByFaultAndResetOnly : Prop :=
  ∀ s t : State, step s = .next t →
    (t.fcode ≠ s.fcode →
      (t.fcode = 0 ∧ ∃ rest, s.pending = .reset :: rest) ∨
      (s.fcode = 0 ∧ (t.fcode = 1 ∨ t.fcode = 2 ∨ t.fcode = 3 ∨ t.fcode = 4) ∧
        t.S = s.S ∧ t.response = some ⟨t.fcode, .none⟩ ∧ ∃ a rest, s.pending = .transact a :: rest)) ∧
    ∀ r, t.response = some r → r.status = t.fcode

/-- 10_state.md R34: no step changes the configuration. -/
def Obligations.StepKeepsTheConfiguration : Prop :=
  ∀ s t : State, step s = .next t → t.cfg = s.cfg

/-- No state stops the model: every step answers a next state, whatever stands in the state and whatever the
host does, and so does every command. A command that passes the checks cannot fault (60_exceptions.md R260).
That a transaction sent to a halted block, an idle block and a faulting transaction answer a next state is the
model's choice (log 2, 3, 11): of a halted block R264 and I9 say that it has no step. -/
def Obligations.EveryStepAnswersANextState : Prop :=
  (∀ s : State, ∃ t, step s = .next t) ∧ (∀ (i : Instr) (s : State), ∃ t, exec i s = .next t)

/-- The invariant holds after reset. -/
def Obligations.ResetMeetsTheInvariant : Prop := Inv State.reset

/-- Every step, from every state that meets the invariant, gives a state that meets it. -/
def Obligations.StepKeepsTheInvariant : Prop :=
  ∀ s t : State, Inv s → step s = .next t → Inv t

/-- 60_exceptions.md R260: whether a transaction faults, and with which code, does not depend on what `S`
holds. -/
def Obligations.FaultsDoNotDependOnTheStateArray : Prop :=
  ∀ (s t : State) (A : StateBits), step s = .next t →
    ∃ u, step { s with S := A } = .next u ∧ u.fcode = t.fcode ∧ u.pending = t.pending

-- Encoding and the checks of a transaction

/-- 30_encoding.md R92: the complete encodings given as examples, the illegal ones among them. -/
def Obligations.ExampleWordsDecodeAsListed : Prop :=
  decode 0x00000001#32 = .ok .init ∧ decode 0x00000514#32 = .ok (.iota 5) ∧
  decode 0x00001714#32 = .ok (.iota 23) ∧ decode 0x00000018#32 = .ok (.round 0) ∧
  decode 0x00001718#32 = .ok (.round 23) ∧ decode 0x00000020#32 = .ok .permute ∧
  decode 0x00000030#32 = .ok .absorb ∧ decode 0x01000040#32 = .ok (.squeeze 256) ∧
  decode 0x04800040#32 = .ok (.squeeze 1152) ∧ decode 0x00000060#32 = .ok .hash ∧
  decode 0x00000000#32 = .error .illegalOpcode ∧ decode 0x00000101#32 = .error .reservedField ∧
  decode 0x00002014#32 = .error .reservedField ∧
  (∀ s : State, s.fcode = 0 → s.pending = [.transact ⟨0x00001814#32, .none⟩] →
    ∃ t, step s = .next t ∧ t.fcode = 3 ∧ t.S = s.S)

/-- 30_encoding.md R81, R87: decoding the word of a command gives the command back, at every value of its
fields, ill-formed round indices too. -/
def Obligations.DecodeOfEncodeGivesTheCommandBack : Prop :=
  ∀ i : Instr, decode (encode i) = .ok i

/-- 30_encoding.md R81, R88: a command has no word but its encoding. -/
def Obligations.EncodeOfDecodeGivesTheWordBack : Prop :=
  ∀ (w : CmdWord) (i : Instr), decode w = .ok i → encode i = w

/-- 30_encoding.md R87: the opcode map as match and mask pairs. -/
def Obligations.OpcodeMapIsMatchAndMask : Prop :=
  ∀ w : CmdWord,
    (decode w = .ok .init ↔ w &&& 0xFFFFFFFF#32 = 0x00000001#32) ∧
    (decode w = .ok .loadState ↔ w &&& 0xFFFFFFFF#32 = 0x00000002#32) ∧
    (decode w = .ok .readState ↔ w &&& 0xFFFFFFFF#32 = 0x00000003#32) ∧
    (decode w = .ok .theta ↔ w &&& 0xFFFFFFFF#32 = 0x00000010#32) ∧
    (decode w = .ok .rho ↔ w &&& 0xFFFFFFFF#32 = 0x00000011#32) ∧
    (decode w = .ok .pi ↔ w &&& 0xFFFFFFFF#32 = 0x00000012#32) ∧
    (decode w = .ok .chi ↔ w &&& 0xFFFFFFFF#32 = 0x00000013#32) ∧
    ((∃ r, decode w = .ok (.iota r)) ↔ w &&& 0xFFFFE0FF#32 = 0x00000014#32) ∧
    ((∃ r, decode w = .ok (.round r)) ↔ w &&& 0xFFFFE0FF#32 = 0x00000018#32) ∧
    (decode w = .ok .permute ↔ w &&& 0xFFFFFFFF#32 = 0x00000020#32) ∧
    (decode w = .ok .absorb ↔ w &&& 0xFFFFFFFF#32 = 0x00000030#32) ∧
    ((∃ n, decode w = .ok (.squeeze n)) ↔ w &&& 0x0000FFFF#32 = 0x00000040#32) ∧
    (decode w = .ok .pad ↔ w &&& 0xFFFFFFFF#32 = 0x00000050#32) ∧
    (decode w = .ok .hash ↔ w &&& 0xFFFFFFFF#32 = 0x00000060#32)

/-- 30_encoding.md R82, R83: the round index is bits 12..8 and the length bits 31..16 of the word, unsigned
and unscaled. -/
def Obligations.OperandFieldsAreReadUnsigned : Prop :=
  ∀ w : CmdWord,
    (∀ r, decode w = .ok (.iota r) → r.toNat = w.toNat / 2 ^ 8 % 2 ^ 5) ∧
    (∀ r, decode w = .ok (.round r) → r.toNat = w.toNat / 2 ^ 8 % 2 ^ 5) ∧
    (∀ n, decode w = .ok (.squeeze n) → n.toNat = w.toNat / 2 ^ 16)

/-- 30_encoding.md R86, 60_exceptions.md R262, R263: a transaction that fails a check raises the fault of
the FIRST check it fails: FCODE and STATUS hold its code, there is no DOUT, and `S` is not written. A
transaction that passes all checks executes the command its word decodes to, and does not fault. -/
def Obligations.TransactionIsCheckedInOrderAndThenExecutes : Prop :=
  ∀ (s : State) (w : CmdWord) (d : Port) (rest : List HostAction),
    s.fcode = 0 → s.pending = .transact ⟨w, d⟩ :: rest →
    (∀ k, CheckResult s.cfg w.toNat d k → k ≠ 0 →
      step s = .next { s with fcode := k, din := .none, response := some ⟨k, .none⟩, pending := rest }) ∧
    (CheckResult s.cfg w.toNat d 0 →
      ∃ i A dout, decode w = .ok i ∧ step s = exec i { s with din := d, pending := rest } ∧
        step s = .next { s with S := A, din := .none, response := some ⟨0, dout⟩, pending := rest })

/-- 30_encoding.md R85: the shape of DOUT after a command that ran, from any state that is not halted. -/
def Obligations.DoutHasTheShapeOfItsCommand : Prop :=
  ∀ (i : Instr) (s t : State), s.fcode = 0 → exec i s = .next t → t.fcode = 0 →
    ∃ d, t.response = some ⟨0, d⟩ ∧ DoutShape i d

-- State commands

/-- 40_state_commands.md R110. -/
def Obligations.InitZeroesTheStateArray : Prop :=
  decode 0x00000001#32 = .ok .init ∧ RejectsReserved 0x01 ∧
  (∀ s : State, s.fcode = 0 → s.din = .none → Completes .init s 0 .none) ∧
  (∀ s : State, s.fcode = 0 → s.din ≠ .none → Faults .init s 4)

/-- 40_state_commands.md R111: bit `v[i]` lands at linear index `i`. -/
def Obligations.LoadStateReplacesTheStateArray : Prop :=
  decode 0x00000002#32 = .ok .loadState ∧ RejectsReserved 0x02 ∧
  (∀ (s : State) (v : List Bool), s.fcode = 0 → s.din = .bits v → v.length = 1600 →
    ∃ A, Completes .loadState s A .none ∧ ∀ i < 1600, A.getLsbD i = v.getD i false) ∧
  (∀ s : State, s.fcode = 0 → ¬ IsBits 1600 s.din → Faults .loadState s 4)

/-- 40_state_commands.md R112: DOUT is `S[0], ..., S[1599]`, and `S` stays. -/
def Obligations.ReadStateReturnsTheStateArray : Prop :=
  decode 0x00000003#32 = .ok .readState ∧ RejectsReserved 0x03 ∧
  (∀ s : State, s.fcode = 0 → s.din = .none →
    ∃ v : List Bool, Completes .readState s s.S (.bits v) ∧ v.length = 1600 ∧
      ∀ i < 1600, v.getD i false = s.S.getLsbD i) ∧
  (∀ s : State, s.fcode = 0 → s.din ≠ .none → Faults .readState s 4)

/-- 30_encoding.md R90, 40_state_commands.md R111: the lane words of an assembler LOAD_STATE land in the
lane registers in order. -/
def Obligations.LoadedLaneWordsLandInTheirLanes : Prop :=
  ∀ (s : State) (w : Vector Lane 25) (rest : List HostAction), s.fcode = 0 →
    s.pending = (expandLine (.loadState w)).map .transact ++ rest →
    ∃ t, step s = .next t ∧ t.fcode = 0 ∧ t.pending = rest ∧
      ∀ k : Fin 25, laneReg t.S k.val = w[k]

/-- 10_state.md R21, R22: linear index, coordinates and lane words are views of the same bits. -/
def Obligations.CoordinateMappingIsTheLinearIndex : Prop :=
  ∀ A : StateBits,
    (∀ (x y : Fin 5) (z : Fin 64), bitAt A x y z = A.getLsbD (64 * (5 * y.val + x.val) + z.val)) ∧
    (∀ (x y : Fin 5) (z : Fin 64), (lane A x y).getLsbD z.val = bitAt A x y z) ∧
    (∀ i < 1600, A.getLsbD i = bitAt A (Fin.ofNat 5 (i / 64)) (Fin.ofNat 5 (i / 320)) (Fin.ofNat 64 i))

-- Round steps

/-- 41_round_steps.md R131, the rule on bits. -/
def Obligations.ThetaXorsTheTwoColumnParities : Prop :=
  decode 0x00000010#32 = .ok .theta ∧ RejectsReserved 0x10 ∧
  (∀ (s : State) (C : Fin 5 → Fin 64 → Bool), s.fcode = 0 → s.din = .none →
    (∀ x z, C x z = (bitAt s.S x 0 z ^^ (bitAt s.S x 1 z ^^ (bitAt s.S x 2 z ^^
      (bitAt s.S x 3 z ^^ bitAt s.S x 4 z))))) →
    ∃ A, Completes .theta s A .none ∧
      ∀ x y z, bitAt A x y z = (bitAt s.S x y z ^^ (C (x - 1) z ^^ C (x + 1) (z - 1)))) ∧
  (∀ s : State, s.fcode = 0 → s.din ≠ .none → Faults .theta s 4)

/-- 41_round_steps.md R133: the offset table, one row for each `y`. -/
def Obligations.RotationOffsetsAreTheTable : Prop :=
  (List.finRange 5).map (fun y => (List.finRange 5).map fun x => offset x y) =
    [[0, 1, 62, 28, 27], [36, 44, 6, 55, 20], [3, 10, 43, 25, 39], [41, 45, 15, 21, 8], [18, 2, 61, 56, 14]]

/-- 41_round_steps.md R134, the rule on bits. -/
def Obligations.RhoRotatesEveryLaneByItsOffset : Prop :=
  decode 0x00000011#32 = .ok .rho ∧ RejectsReserved 0x11 ∧
  (∀ s : State, s.fcode = 0 → s.din = .none →
    ∃ A, Completes .rho s A .none ∧
      ∀ x y z, bitAt A x y z = bitAt s.S x y (z - Fin.ofNat 64 (offset x y))) ∧
  (∀ s : State, s.fcode = 0 → s.din ≠ .none → Faults .rho s 4)

/-- 41_round_steps.md R136, the rule on bits. -/
def Obligations.PiMovesEveryLane : Prop :=
  decode 0x00000012#32 = .ok .pi ∧ RejectsReserved 0x12 ∧
  (∀ s : State, s.fcode = 0 → s.din = .none →
    ∃ A, Completes .pi s A .none ∧
      ∀ x y z, bitAt A y (2 * x + 3 * y) z = bitAt s.S x y z) ∧
  (∀ s : State, s.fcode = 0 → s.din ≠ .none → Faults .pi s 4)

/-- 41_round_steps.md R139, the rule on bits. -/
def Obligations.ChiMixesEveryRow : Prop :=
  decode 0x00000013#32 = .ok .chi ∧ RejectsReserved 0x13 ∧
  (∀ s : State, s.fcode = 0 → s.din = .none →
    ∃ A, Completes .chi s A .none ∧
      ∀ x y z, bitAt A x y z =
        (bitAt s.S x y z ^^ (!bitAt s.S (x + 1) y z && bitAt s.S (x + 2) y z))) ∧
  (∀ s : State, s.fcode = 0 → s.din ≠ .none → Faults .chi s 4)

/-- 41_round_steps.md R141: the round constants, and the places where any of them has a 1. -/
def Obligations.RoundConstantsAreTheTable : Prop :=
  (List.finRange 24).map roundConstant =
    [0x0000000000000001, 0x0000000000008082, 0x800000000000808A, 0x8000000080008000,
     0x000000000000808B, 0x0000000080000001, 0x8000000080008081, 0x8000000000008009] ++
    [0x000000000000008A, 0x0000000000000088, 0x0000000080008009, 0x000000008000000A,
     0x000000008000808B, 0x800000000000008B, 0x8000000000008089, 0x8000000000008003] ++
    [0x8000000000008002, 0x8000000000000080, 0x000000000000800A, 0x800000008000000A,
     0x8000000080008081, 0x8000000000008080, 0x0000000080000001, 0x8000000080008008] ∧
  ∀ (r : Fin 24) (z : Fin 64), (roundConstant r).getLsbD z.val = true → z.val ∈ [0, 1, 3, 7, 15, 31, 63]

/-- 41_round_steps.md R142, the rule on bits; a round index of 24..31 faults whatever the operand. -/
def Obligations.IotaXorsTheRoundConstant : Prop :=
  (∀ r : BitVec 5, decode (BitVec.ofNat 32 (0x14 + 2 ^ 8 * r.toNat)) = .ok (.iota r)) ∧ RejectsReserved 0x14 ∧
  (∀ (s : State) (r : BitVec 5) (h : r.toNat < 24), s.fcode = 0 → s.din = .none →
    ∃ A, Completes (.iota r) s A .none ∧
      (∀ z : Fin 64, bitAt A 0 0 z = (bitAt s.S 0 0 z ^^ (roundConstant ⟨r.toNat, h⟩).getLsbD z.val)) ∧
      ∀ x y z, ¬ (x = 0 ∧ y = 0) → bitAt A x y z = bitAt s.S x y z) ∧
  (∀ (s : State) (r : BitVec 5), s.fcode = 0 → 23 < r.toNat → Faults (.iota r) s 3) ∧
  (∀ (s : State) (r : BitVec 5), s.fcode = 0 → r.toNat ≤ 23 → s.din ≠ .none → Faults (.iota r) s 4)

/-- 41_round_steps.md R132, R135, R138, R140: the lane-word forms, and rho and pi fused. -/
def Obligations.LaneWordFormsOfTheSteps : Prop :=
  ∀ (A : StateBits) (x y : Fin 5),
    (∀ C : Fin 5 → Lane,
      (∀ x, C x = lane A x 0 ^^^ lane A x 1 ^^^ lane A x 2 ^^^ lane A x 3 ^^^ lane A x 4) →
      lane (theta A) x y = lane A x y ^^^ (C (x - 1) ^^^ rotl64 (C (x + 1)) 1)) ∧
    lane (rho A) x y = rotl64 (lane A x y) (offset x y) ∧
    lane (pi A) y (2 * x + 3 * y) = lane A x y ∧
    lane (pi (rho A)) y (2 * x + 3 * y) = rotl64 (lane A x y) (offset x y) ∧
    lane (chi A) x y = lane A x y ^^^ (~~~(lane A (x + 1) y) &&& lane A (x + 2) y)

/-- 41_round_steps.md R131, R134, R136, R139, corner cases: the all-zero and the all-one state are fixed
points of the first four steps; R142: iota applied twice with one index gives the state back. -/
def Obligations.FixedPointsAndInvolutionOfTheSteps : Prop :=
  (∀ F ∈ [theta, rho, pi, chi], F 0 = 0 ∧ F (BitVec.allOnes 1600) = BitVec.allOnes 1600) ∧
  ∀ (r : Fin 24) (A : StateBits), iota r (iota r A) = A

-- Round and permutation

/-- 42_permutation.md R170: theta, then rho, pi, chi, iota. -/
def Obligations.RoundAppliesTheFiveStepsInOrder : Prop :=
  (∀ r : BitVec 5, decode (BitVec.ofNat 32 (0x18 + 2 ^ 8 * r.toNat)) = .ok (.round r)) ∧ RejectsReserved 0x18 ∧
  (∀ (s : State) (r : BitVec 5) (h : r.toNat < 24), s.fcode = 0 → s.din = .none →
    Completes (.round r) s (iota ⟨r.toNat, h⟩ (chi (pi (rho (theta s.S))))) .none) ∧
  (∀ (s : State) (r : BitVec 5), s.fcode = 0 → 23 < r.toNat → Faults (.round r) s 3) ∧
  (∀ (s : State) (r : BitVec 5), s.fcode = 0 → r.toNat ≤ 23 → s.din ≠ .none → Faults (.round r) s 4)

/-- 42_permutation.md R170, corner case: a round of the all-zero state leaves its round constant in lane
`(0,0)` and zero in every other lane. -/
def Obligations.RoundOfTheZeroState : Prop :=
  ∀ (r : Fin 24) (x y : Fin 5),
    lane (keccakRound r 0) x y = if x = 0 ∧ y = 0 then roundConstant r else 0

/-- 42_permutation.md R171, R172: the 24 rounds, index increasing from 0 to 23, each fed by the one before. -/
def Obligations.PermuteAppliesTwentyFourRoundsInOrder : Prop :=
  decode 0x00000020#32 = .ok .permute ∧ RejectsReserved 0x20 ∧
  (∀ s : State, s.fcode = 0 → s.din = .none →
    ∃ T : Nat → StateBits, T 0 = s.S ∧
      (∀ (i : Nat) (h : i < 24), T (i + 1) = iota ⟨i, h⟩ (chi (pi (rho (theta (T i)))))) ∧
      Completes .permute s (T 24) .none) ∧
  (∀ s : State, s.fcode = 0 → s.din ≠ .none → Faults .permute s 4)

/-- 42_permutation.md: the function the source names a permutation sends no two states to one. -/
def Obligations.KeccakFIsInjective : Prop :=
  ∀ A B : StateBits, keccakF A = keccakF B → A = B

/-- 30_encoding.md R91, STEPS: the five step commands of round `r`, sent one after the other, have the
effect of ROUND r on `S`. -/
def Obligations.StepsHaveTheEffectOfRound : Prop :=
  ∀ (s : State) (r : Fin 24) (rest : List HostAction), s.fcode = 0 →
    s.pending = (expandLine (.steps r)).map .transact ++ rest →
    ∃ t u, After 5 s t ∧ t.fcode = 0 ∧ t.pending = rest ∧
      step { s with pending := (expandLine (.round r)).map .transact ++ rest } = .next u ∧
      u.fcode = 0 ∧ u.pending = rest ∧ t.S = u.S

/-- 30_encoding.md R91, ROUNDS 0, 23: the 24 ROUND commands in order have the effect of PERMUTE on `S`. -/
def Obligations.RoundsHaveTheEffectOfPermute : Prop :=
  ∀ (s : State) (rest : List HostAction), s.fcode = 0 →
    s.pending = (expandLine (.rounds 0 23)).map .transact ++ rest →
    ∃ t u, After 24 s t ∧ t.fcode = 0 ∧ t.pending = rest ∧
      step { s with pending := (expandLine .permute).map .transact ++ rest } = .next u ∧
      u.fcode = 0 ∧ u.pending = rest ∧ t.S = u.S

-- Codec and padding

/-- 20_memory.md R54. -/
def Obligations.BytesToBitsIsLeastSignificantFirst : Prop :=
  ∀ m : List Byte, (bytesToBits m).length = 8 * m.length ∧
    ∀ k < m.length, ∀ i < 8, (bytesToBits m).getD (8 * k + i) false = (m.getD k 0).getLsbD i

/-- 20_memory.md R55, on the lengths for which it is defined. -/
def Obligations.BitsToBytesSumsTheBits : Prop :=
  ∀ (b : List Bool) (n : Nat), b.length = 8 * n → (bitsToBytes b).length = n ∧
    ∀ k < n, ((bitsToBytes b).getD k 0).toNat =
      ((List.range 8).map fun i => (b.getD (8 * k + i) false).toNat * 2 ^ i).sum

/-- 20_memory.md R56. -/
def Obligations.CodecRoundTrip : Prop :=
  (∀ m : List Byte, bitsToBytes (bytesToBits m) = m) ∧
  ∀ b : List Bool, b.length % 8 = 0 → bytesToBits (bitsToBytes b) = b

/-- 20_memory.md R58: the 200-byte image of the state is its lanes, least significant byte first. -/
def Obligations.StateImageIsLittleEndianLanes : Prop :=
  ∀ A : StateBits, (bitsToBytes (toBits A)).length = 200 ∧
    ∀ k < 25, ∀ j < 8, (bitsToBytes (toBits A)).getD (8 * k + j) 0 = (laneReg A k).extractLsb' (8 * j) 8

/-- 43_padding.md R190: the message, a 1, the least number of zeros that brings the length to one short of
a multiple of 1088, and a 1. -/
def Obligations.PadIsTheLeastTenStarOne : Prop :=
  ∀ m : List Bool, ∃ j, pad m = m ++ [true] ++ List.replicate j false ++ [true] ∧
    j = ((-(m.length : Int) - 2) % 1088).toNat ∧
    (m.length + 1 + j) % 1088 = 1087 ∧ ∀ k < j, (m.length + 1 + k) % 1088 ≠ 1087

/-- 43_padding.md R192, with both bounds on the bits added. -/
def Obligations.PadLengthIsTheSmallestMultiple : Prop :=
  (∀ m : List Bool, (pad m).length % 1088 = 0 ∧ m.length + 2 ≤ (pad m).length ∧
    (∀ k, k % 1088 = 0 → m.length + 2 ≤ k → (pad m).length ≤ k) ∧
    (pad m).length = 1088 * ((m.length + 2 + 1087) / 1088) ∧
    (pad m).length ≤ m.length + 1089 ∧
    ((pad m).length = m.length + 2 ↔ m.length % 1088 = 1086) ∧
    ((pad m).length = m.length + 1089 ↔ m.length % 1088 = 1087)) ∧
  ∀ B : List Byte, (bytesToBits B).length + 8 ≤ (pad (bytesToBits B)).length ∧
    (pad (bytesToBits B)).length ≤ (bytesToBits B).length + 1088

/-- 43_padding.md R191: the byte-aligned form is the byte image of the padding on bits. -/
def Obligations.PadBytesIsTheByteImageOfPad : Prop :=
  ∀ B : List Byte, padBytes B = bitsToBytes (pad (bytesToBits B)) ∧
    bytesToBits (padBytes B) = pad (bytesToBits B)

/-- 43_padding.md R193 with the bytes of R191: the message, then `0x01`, zeros and `0x80`, or `0x81` alone;
`S` stays. -/
def Obligations.PadReturnsTheMessageAndItsPadding : Prop :=
  decode 0x00000050#32 = .ok .pad ∧ RejectsReserved 0x50 ∧
  (∀ (s : State) (m : List Byte), s.fcode = 0 → s.din = .bytes m → IsMessage s.cfg s.din →
    ∃ P : List Byte, Completes .pad s s.S (.bytes P) ∧
      P.length = 136 * (m.length / 136 + 1) ∧ P.take m.length = m ∧
      (m.length % 136 = 135 → P.drop m.length = [0x81]) ∧
      (m.length % 136 ≠ 135 →
        P.drop m.length = 0x01 :: (List.replicate (134 - m.length % 136) 0x00 ++ [0x80]))) ∧
  (∀ s : State, s.fcode = 0 → ¬ IsMessage s.cfg s.din → Faults .pad s 4)

/-- 43_padding.md R195: the blocks of a padded message, in order; their number is that of R230. -/
def Obligations.BlocksAreTheConsecutiveSlices : Prop :=
  (∀ p : List Bool, ∀ k, p.length = 1088 * k → (blocks p).length = k ∧
    ∀ i < k, ∀ j < 1088, ((blocks p).getD i 0).getLsbD j = p.getD (1088 * i + j) false) ∧
  ∀ B : List Byte, (blocks (pad (bytesToBits B))).length = B.length / 136 + 1

-- Sponge

/-- 44_sponge.md R210: the block XORed into the rate, the capacity untouched, then the permutation. -/
def Obligations.AbsorbXorsTheRateAndPermutes : Prop :=
  decode 0x00000030#32 = .ok .absorb ∧ RejectsReserved 0x30 ∧
  (∀ (s : State) (v : List Bool), s.fcode = 0 → s.din = .bits v → v.length = 1088 →
    ∃ T : StateBits, (∀ i < 1088, T.getLsbD i = (s.S.getLsbD i ^^ v.getD i false)) ∧
      (∀ i, 1088 ≤ i → T.getLsbD i = s.S.getLsbD i) ∧ Completes .absorb s (keccakF T) .none) ∧
  (∀ s : State, s.fcode = 0 → ¬ IsBits 1088 s.din → Faults .absorb s 4)

/-- 20_memory.md R57: byte `k` of a block meets byte `k mod 8` of lane register `k div 8`. -/
def Obligations.BlockBytesMeetTheLanesInOrder : Prop :=
  ∀ (A : StateBits) (m : List Byte), m.length = 136 → ∀ k < 136,
    (laneReg (xorRate A (ofBits 1088 (bytesToBits m))) (k / 8)).extractLsb' (8 * (k % 8)) 8 =
      (laneReg A (k / 8)).extractLsb' (8 * (k % 8)) 8 ^^^ m.getD k 0

/-- 44_sponge.md R212, R214: output bit `i` is bit `i mod 1088` of the state permuted `i div 1088` times,
for every length 0..65535; `S` stays. -/
def Obligations.SqueezeReadsTheRatesInOrder : Prop :=
  (∀ n : BitVec 16, decode (BitVec.ofNat 32 (0x40 + 2 ^ 16 * n.toNat)) = .ok (.squeeze n)) ∧ RejectsReserved 0x40 ∧
  (∀ (s : State) (n : BitVec 16), s.fcode = 0 → s.din = .none →
    ∃ out : List Bool, Completes (.squeeze n) s s.S (.bits out) ∧ out.length = n.toNat ∧
      ∀ i < n.toNat, out.getD i false = (keccakF^[i / 1088] s.S).getLsbD (i % 1088)) ∧
  (∀ (s : State) (n : BitVec 16), s.fcode = 0 → s.din ≠ .none → Faults (.squeeze n) s 4)

/-- 44_sponge.md R213: 256 bits of output are the first four lanes. -/
def Obligations.SqueezeOfTheDigestLengthIsFourLanes : Prop :=
  ∀ A : StateBits, squeeze A 256 =
    toBits (lane A 0 0) ++ toBits (lane A 1 0) ++ toBits (lane A 2 0) ++ toBits (lane A 3 0)

/-- READ_STATE, SQUEEZE, PAD and HASH never write `S`, and a second one, given the same operand, answers the
same: 20_memory.md R65 for READ_STATE and SQUEEZE. For PAD and HASH the first part is 20_memory.md R63,
43_padding.md R193 and 45_hash.md R232, and the second an inference from them. -/
def Obligations.ReadsHaveNoSideEffect : Prop :=
  ∀ (i : Instr) (s t : State), WritesNoState i → exec i s = .next t →
    t.S = s.S ∧ (t.fcode = s.fcode → exec i { t with din := s.din } = .next t)

-- Hash

/-- 45_hash.md R230: from the zero state, every block of the padded message absorbed in order, then 256
bits squeezed; `S` stays. -/
def Obligations.HashComputesTheDigest : Prop :=
  decode 0x00000060#32 = .ok .hash ∧ RejectsReserved 0x60 ∧
  (∀ (s : State) (m : List Byte), s.fcode = 0 → s.din = .bytes m → IsMessage s.cfg s.din →
    ∃ (T : Nat → StateBits) (d : List Byte), T 0 = 0 ∧
      (∀ i < m.length / 136 + 1, ∃ blk : Block, T (i + 1) = absorb (T i) blk ∧
        ∀ j < 1088, blk.getLsbD j = (pad (bytesToBits m)).getD (1088 * i + j) false) ∧
      d = bitsToBytes (squeeze (T (m.length / 136 + 1)) 256) ∧ d.length = 32 ∧
      Completes .hash s s.S (.bytes d)) ∧
  (∀ s : State, s.fcode = 0 → ¬ IsMessage s.cfg s.din → Faults .hash s 4)

/-- 45_hash.md R232: HASH neither reads nor writes `S`. -/
def Obligations.HashNeitherReadsNorWritesTheState : Prop :=
  ∀ (s : State) (A : StateBits), ∃ t, exec .hash s = .next t ∧ t.S = s.S ∧
    exec .hash { s with S := A } = .next { t with S := A }

/-- 45_hash.md R233: digest byte `j` is byte `j mod 8` of lane register `j div 8` of the final state. -/
def Obligations.DigestBytesAreTheLanesInOrder : Prop :=
  ∀ A : StateBits, (bitsToBytes (squeeze A 256)).length = 32 ∧
    ∀ j < 32, (bitsToBytes (squeeze A 256)).getD j 0 = (laneReg A (j / 8)).extractLsb' (8 * (j % 8)) 8

/-- 45_hash.md R234: INIT, the ABSORBs of the padded message's blocks and SQUEEZE 256, sent one after the
other, answer bits whose bytes are the digest HASH computes, and leave the absorbed state in `S`. -/
def Obligations.SpongeSequenceGivesTheDigest : Prop :=
  ∀ (s : State) (m : List Byte) (rest : List HostAction), s.fcode = 0 →
    s.pending = (expandLine (.sponge (.hex m) 256)).map .transact ++ rest →
    ∃ (t : State) (v : List Bool), After (m.length / 136 + 3) s t ∧ t.fcode = 0 ∧ t.pending = rest ∧
      t.response = some ⟨0, .bits v⟩ ∧ bitsToBytes v = computeHash m ∧ t.S = absorbMessage m
end

