-- ==== Sys2Proof/Laws/Decode.lean ====
section
/-! SUPPORT. The fields of a command word, and all that the decoder can answer. -/

namespace Sys2Proof

/-- The fields of a word, as numbers (30_encoding.md R81). -/
theorem toNat_opField (w : CmdWord) : (opField w).toNat = w.toNat % 2 ^ 8 := by
  simp [opField, BitVec.extractLsb'_toNat]

theorem toNat_rndField (w : CmdWord) : (rndField w).toNat = w.toNat / 2 ^ 8 % 2 ^ 5 := by
  simp [rndField, BitVec.extractLsb'_toNat, Nat.shiftRight_eq_div_pow]

theorem toNat_lenField (w : CmdWord) : (lenField w).toNat = w.toNat / 2 ^ 16 := by
  have := w.isLt
  simp only [lenField, BitVec.extractLsb'_toNat, Nat.shiftRight_eq_div_pow]
  omega

/-- A command word as a number. -/
theorem toNat_commandWord (l : BitVec 16) (r : BitVec 5) (o : BitVec 8) :
    (commandWord l r o).toNat = o.toNat + 2 ^ 8 * r.toNat + 2 ^ 16 * l.toNat := by
  have := l.isLt; have := r.isLt; have := o.isLt
  simp only [commandWord, BitVec.toNat_ofNat]
  omega

@[simp] theorem opField_commandWord (l : BitVec 16) (r : BitVec 5) (o : BitVec 8) :
    opField (commandWord l r o) = o := by
  have := o.isLt
  refine BitVec.eq_of_toNat_eq ?_
  rw [toNat_opField, toNat_commandWord]
  omega

@[simp] theorem rndField_commandWord (l : BitVec 16) (r : BitVec 5) (o : BitVec 8) :
    rndField (commandWord l r o) = r := by
  have := o.isLt; have := r.isLt
  refine BitVec.eq_of_toNat_eq ?_
  rw [toNat_rndField, toNat_commandWord]
  omega

@[simp] theorem lenField_commandWord (l : BitVec 16) (r : BitVec 5) (o : BitVec 8) :
    lenField (commandWord l r o) = l := by
  have := o.isLt; have := r.isLt
  refine BitVec.eq_of_toNat_eq ?_
  rw [toNat_lenField, toNat_commandWord]
  omega

/-- The masks of 30_encoding.md R86, as numbers: the bits from place 8 on, from place 13 on, and the places
8 to 15. -/
theorem and_from_8 (w : CmdWord) : w &&& (0xFFFFFF00 : CmdWord) = 0 ↔ w.toNat / 2 ^ 8 = 0 := by
  have h : w &&& (0xFFFFFF00 : CmdWord) = (w >>> 8) <<< 8 := by
    refine BitVec.eq_of_getLsbD_eq fun i hi => ?_
    interval_cases i <;> simp
  have := w.isLt
  rw [h, ← BitVec.toNat_inj]
  simp only [BitVec.toNat_shiftLeft, BitVec.toNat_ushiftRight, Nat.shiftLeft_eq, Nat.shiftRight_eq_div_pow,
    BitVec.ofNat_eq_ofNat, BitVec.toNat_ofNat]
  omega

theorem and_from_13 (w : CmdWord) : w &&& (0xFFFFE000 : CmdWord) = 0 ↔ w.toNat / 2 ^ 13 = 0 := by
  have h : w &&& (0xFFFFE000 : CmdWord) = (w >>> 13) <<< 13 := by
    refine BitVec.eq_of_getLsbD_eq fun i hi => ?_
    interval_cases i <;> simp
  have := w.isLt
  rw [h, ← BitVec.toNat_inj]
  simp only [BitVec.toNat_shiftLeft, BitVec.toNat_ushiftRight, Nat.shiftLeft_eq, Nat.shiftRight_eq_div_pow,
    BitVec.ofNat_eq_ofNat, BitVec.toNat_ofNat]
  omega

theorem and_8_to_15 (w : CmdWord) : w &&& (0x0000FF00 : CmdWord) = 0 ↔ w.toNat / 2 ^ 8 % 2 ^ 8 = 0 := by
  have h : w &&& (0x0000FF00 : CmdWord) = ((w >>> 8) <<< 24) >>> 16 := by
    refine BitVec.eq_of_getLsbD_eq fun i hi => ?_
    interval_cases i <;> simp
  have := w.isLt
  rw [h, ← BitVec.toNat_inj]
  simp only [BitVec.toNat_shiftLeft, BitVec.toNat_ushiftRight, Nat.shiftLeft_eq, Nat.shiftRight_eq_div_pow,
    BitVec.ofNat_eq_ofNat, BitVec.toNat_ofNat]
  omega

/-- The decoder accepts exactly the words whose opcode is in the map and whose reserved bits are 0. -/
theorem decode_ok_iff (w : CmdWord) (i : Instr) :
    decode w = .ok i ↔ selectByOpcode w = some i ∧ w &&& mustBeZero (opField w) = 0 := by
  unfold decode
  cases h : selectByOpcode w with
  | none => simp
  | some j => dsimp only; split <;> simp_all

/-- The decoder rejects as illegal exactly the words whose opcode is not in the map. -/
theorem decode_illegal_iff (w : CmdWord) :
    decode w = .error .illegalOpcode ↔ selectByOpcode w = none := by
  unfold decode
  cases h : selectByOpcode w with
  | none => simp
  | some j => dsimp only; split <;> simp_all

/-- The decoder rejects as reserved exactly the words of a legal opcode with a reserved bit set. -/
theorem decode_reserved_iff (w : CmdWord) :
    decode w = .error .reservedField ↔
      selectByOpcode w ≠ none ∧ w &&& mustBeZero (opField w) ≠ 0 := by
  unfold decode
  cases h : selectByOpcode w with
  | none => simp
  | some j => dsimp only; split <;> simp_all

end Sys2Proof
end

