-- ==== Sys2Proof/Laws/Ops.lean ====
section
/-! SUPPORT. What each operand check does: on the required shape it hands the operand on, otherwise it
raises its fault; and all it can answer. -/

namespace Sys2Proof.Machine

variable {s : State} {o : Host.Outcome State Fault Refusal}

theorem withNoOperand_of_none {k} (h : s.din = .none) : withNoOperand s k = k := by
  simp [withNoOperand, h]

theorem withNoOperand_of_ne {k} (h : s.din ≠ .none) : withNoOperand s k = raise s .dataShape := by
  cases hd : s.din <;> simp_all [withNoOperand]

/-- All that `withNoOperand` can answer. -/
theorem withNoOperand_cases (s : State) (k) :
    (s.din = .none ∧ withNoOperand s k = k) ∨ (s.din ≠ .none ∧ withNoOperand s k = raise s .dataShape) := by
  by_cases h : s.din = .none
  · exact .inl ⟨h, withNoOperand_of_none h⟩
  · exact .inr ⟨h, withNoOperand_of_ne h⟩

theorem withBits_of_length {n k} {v : List Bool} (h : s.din = .bits v) (hv : v.length = n) :
    withBits n s k = k (ofBits n v) := by
  simp [withBits, h, hv]

/-- All that `withBits` can answer. -/
theorem withBits_cases (n : Nat) (s : State) (k) :
    (∃ v, s.din = .bits v ∧ v.length = n ∧ withBits n s k = k (ofBits n v)) ∨
    ((∀ v, s.din = .bits v → v.length ≠ n) ∧ withBits n s k = raise s .dataShape) := by
  cases hd : s.din with
  | none => exact .inr ⟨by simp, by simp [withBits, hd]⟩
  | bytes m => exact .inr ⟨by simp, by simp [withBits, hd]⟩
  | bits v =>
    by_cases hv : v.length = n
    · exact .inl ⟨v, rfl, hv, withBits_of_length hd hv⟩
    · exact .inr ⟨by simp [hv], by simp [withBits, hd, hv]⟩

theorem admitsLength_iff (c : Config) (n : Nat) :
    admitsLength c n = true ↔ ∀ b, c.maxMessageBytes = some b → n ≤ b := by
  cases h : c.maxMessageBytes <;> simp [admitsLength, h]

theorem withBytes_of_admitted {k} {m : List Byte} (h : s.din = .bytes m)
    (hm : ∀ b, s.cfg.maxMessageBytes = some b → m.length ≤ b) : withBytes s k = k m := by
  simp [withBytes, h, (admitsLength_iff s.cfg m.length).2 hm]

/-- All that `withBytes` can answer. -/
theorem withBytes_cases (s : State) (k) :
    (∃ m, s.din = .bytes m ∧ admitsLength s.cfg m.length = true ∧ withBytes s k = k m) ∨
    ((∀ m, s.din = .bytes m → admitsLength s.cfg m.length = false) ∧ withBytes s k = raise s .dataShape) := by
  cases hd : s.din with
  | none => exact .inr ⟨by simp, by simp [withBytes, hd]⟩
  | bits v => exact .inr ⟨by simp, by simp [withBytes, hd]⟩
  | bytes m =>
    cases hm : admitsLength s.cfg m.length
    · exact .inr ⟨by simpa using hm, by simp [withBytes, hd, hm]⟩
    · exact .inl ⟨m, rfl, hm, by simp [withBytes, hd, hm]⟩

theorem withRound_of_lt {r : BitVec 5} {k} (h : r.toNat < 24) : withRound r s k = k ⟨r.toNat, h⟩ := by
  simp [withRound, h]

theorem withRound_of_le {r : BitVec 5} {k} (h : 24 ≤ r.toNat) : withRound r s k = raise s .roundRange := by
  simp [withRound, Nat.not_lt.2 h]

/-- All that `withRound` can answer. -/
theorem withRound_cases (r : BitVec 5) (s : State) (k) :
    (∃ h : r.toNat < 24, withRound r s k = k ⟨r.toNat, h⟩) ∨
    (24 ≤ r.toNat ∧ withRound r s k = raise s .roundRange) := by
  rcases Nat.lt_or_ge r.toNat 24 with h | h
  · exact .inl ⟨h, withRound_of_lt h⟩
  · exact .inr ⟨h, withRound_of_le h⟩

end Sys2Proof.Machine
end

