-- ==== Sys2Proof/Laws/State.lean ====
section
/-! SUPPORT. One lemma for each field of the state after each update, so that no proof unfolds one. -/

namespace Sys2Proof.Machine

variable (s : State) (A : StateBits) (d : Port) (f : Fault)

@[simp] theorem complete_S : (s.complete A d).S = A := rfl
@[simp] theorem complete_fcode : (s.complete A d).fcode = s.fcode := rfl
@[simp] theorem complete_din : (s.complete A d).din = .none := rfl
@[simp] theorem complete_response : (s.complete A d).response = some ⟨s.fcode, d⟩ := rfl
@[simp] theorem complete_cfg : (s.complete A d).cfg = s.cfg := rfl
@[simp] theorem complete_pending : (s.complete A d).pending = s.pending := rfl

@[simp] theorem takeFault_S : (s.takeFault f).S = s.S := rfl
@[simp] theorem takeFault_fcode : (s.takeFault f).fcode = f.code := rfl
@[simp] theorem takeFault_din : (s.takeFault f).din = .none := rfl
@[simp] theorem takeFault_response : (s.takeFault f).response = some ⟨f.code, .none⟩ := rfl
@[simp] theorem takeFault_cfg : (s.takeFault f).cfg = s.cfg := rfl
@[simp] theorem takeFault_pending : (s.takeFault f).pending = s.pending := rfl

@[simp] theorem hostReset_S : s.hostReset.S = 0 := rfl
@[simp] theorem hostReset_fcode : s.hostReset.fcode = 0 := rfl
@[simp] theorem hostReset_din : s.hostReset.din = .none := rfl
@[simp] theorem hostReset_response : s.hostReset.response = none := rfl
@[simp] theorem hostReset_cfg : s.hostReset.cfg = s.cfg := rfl
@[simp] theorem hostReset_pending : s.hostReset.pending = s.pending := rfl

@[simp] theorem noTransaction_S : s.noTransaction.S = s.S := rfl
@[simp] theorem noTransaction_fcode : s.noTransaction.fcode = s.fcode := rfl
@[simp] theorem noTransaction_din : s.noTransaction.din = .none := rfl
@[simp] theorem noTransaction_response : s.noTransaction.response = none := rfl
@[simp] theorem noTransaction_cfg : s.noTransaction.cfg = s.cfg := rfl
@[simp] theorem noTransaction_pending : s.noTransaction.pending = s.pending := rfl

/-- A fault's code is one of 1..4, so never 0 (60_exceptions.md R261). -/
theorem fault_code_ne_zero : f.code ≠ 0 := by cases f <;> decide

theorem halted_eq_true_iff : s.halted = true ↔ s.fcode ≠ 0 := by simp [State.halted]

theorem halted_eq_false_iff : s.halted = false ↔ s.fcode = 0 := by simp [State.halted]

end Sys2Proof.Machine
end

