-- ==== Sys2Proof/Laws/Step.lean ====
section
/-! SUPPORT. All that a command and a step can do. -/

namespace Sys2Proof.Machine

/-- How a command can end: it completes with some state array and some data, or takes a fault of the operand
checks, round range or data shape. -/
inductive Ending (s : State) : Host.Outcome State Fault Refusal → Prop where
  | completes (A : StateBits) (d : Port) : Ending s (ran s A d)
  | faults (f : Fault) : Ending s (raise s f)

theorem ending_withNoOperand {s : State} {k} (h : Ending s k) : Ending s (withNoOperand s k) := by
  rcases withNoOperand_cases s k with ⟨-, e⟩ | ⟨-, e⟩ <;> rw [e]
  · exact h
  · exact .faults _

theorem ending_withBits {n : Nat} {s : State} {k} (h : ∀ v, Ending s (k v)) : Ending s (withBits n s k) := by
  rcases withBits_cases n s k with ⟨v, -, -, e⟩ | ⟨-, e⟩ <;> rw [e]
  · exact h _
  · exact .faults _

theorem ending_withBytes {s : State} {k} (h : ∀ m, Ending s (k m)) : Ending s (withBytes s k) := by
  rcases withBytes_cases s k with ⟨m, -, -, e⟩ | ⟨-, e⟩ <;> rw [e]
  · exact h _
  · exact .faults _

theorem ending_withRound {r : BitVec 5} {s : State} {k} (h : ∀ j, Ending s (k j)) :
    Ending s (withRound r s k) := by
  rcases withRound_cases r s k with ⟨_, e⟩ | ⟨-, e⟩ <;> rw [e]
  · exact h _
  · exact .faults _

/-- Every command, from every state, completes or takes a fault. -/
theorem exec_ending (i : Instr) (s : State) : Ending s (exec i s) := by
  cases i with
  | init => exact ending_withNoOperand (.completes _ _)
  | loadState => unfold exec execLoadState; exact ending_withBits fun _ => .completes _ _
  | readState => exact ending_withNoOperand (.completes _ _)
  | theta => exact ending_withNoOperand (.completes _ _)
  | rho => exact ending_withNoOperand (.completes _ _)
  | pi => exact ending_withNoOperand (.completes _ _)
  | chi => exact ending_withNoOperand (.completes _ _)
  | iota r => unfold exec execIota; exact ending_withRound fun _ => ending_withNoOperand (.completes _ _)
  | round r => unfold exec execRound; exact ending_withRound fun _ => ending_withNoOperand (.completes _ _)
  | permute => exact ending_withNoOperand (.completes _ _)
  | absorb => unfold exec execAbsorb; exact ending_withBits fun _ => .completes _ _
  | squeeze n => exact ending_withNoOperand (.completes _ _)
  | pad => unfold exec execPad; exact ending_withBytes fun _ => .completes _ _
  | hash => unfold exec execHash; exact ending_withBytes fun _ => .completes _ _

/-- The next states of a command (the inversion every frame and invariant goes through). -/
theorem exec_next_cases {i : Instr} {s t : State} (h : exec i s = .next t) :
    (∃ A d, t = s.complete A d) ∨ ∃ f, t = s.takeFault f := by
  have e := exec_ending i s
  rw [h] at e
  cases e with
  | completes A d => exact .inl ⟨A, d, rfl⟩
  | faults f => exact .inr ⟨f, rfl⟩

theorem transact_halted {s : State} (t : Transaction) (h : s.fcode ≠ 0) :
    s.transact t = .next s.noTransaction := by
  rw [State.transact, if_pos ((halted_eq_true_iff s).2 h)]

theorem transact_running {s : State} (t : Transaction) (h : s.fcode = 0) : s.transact t = s.accept t := by
  rw [State.transact, (halted_eq_false_iff s).2 h, if_neg (by decide)]

theorem step_idle {s : State} (h : s.pending = []) : step s = .next s.noTransaction := by
  simp only [step, State.nextAction, h]

theorem step_reset {s : State} {rest : List HostAction} (h : s.pending = .reset :: rest) :
    step s = .next { s with pending := rest }.hostReset := by
  simp only [step, State.nextAction, h]

theorem step_transact {s : State} {a : Transaction} {rest : List HostAction}
    (h : s.pending = .transact a :: rest) : step s = { s with pending := rest }.transact a := by
  simp only [step, State.nextAction, h]

/-- The next states of a step, by what the host does and whether the block is halted. -/
theorem step_next_cases {s t : State} (h : step s = .next t) :
    (s.pending = [] ∧ t = s.noTransaction) ∨
    (∃ rest, s.pending = .reset :: rest ∧ t = { s with pending := rest }.hostReset) ∨
    (∃ a rest, s.pending = .transact a :: rest ∧ s.fcode ≠ 0 ∧
      t = { s with pending := rest }.noTransaction) ∨
    (∃ a rest, s.pending = .transact a :: rest ∧ s.fcode = 0 ∧
      { s with pending := rest }.accept a = .next t) := by
  rcases hp : s.pending with - | ⟨a | _, rest⟩
  · rw [step_idle hp] at h
    exact .inl ⟨rfl, (Host.Outcome.next.inj h).symm⟩
  · rw [step_transact hp] at h
    by_cases hf : s.fcode = 0
    · rw [transact_running (s := { s with pending := rest }) a hf] at h
      exact .inr (.inr (.inr ⟨a, rest, rfl, hf, h⟩))
    · rw [transact_halted (s := { s with pending := rest }) a hf] at h
      exact .inr (.inr (.inl ⟨a, rest, rfl, hf, (Host.Outcome.next.inj h).symm⟩))
  · rw [step_reset hp] at h
    exact .inr (.inl ⟨rest, rfl, (Host.Outcome.next.inj h).symm⟩)

/-- What accepting a transaction comes to: the decoder's fault, or the decoded command. -/
theorem accept_cases (s : State) (a : Transaction) :
    (∃ e, decode a.cmd = .error e ∧ s.accept a = raise { s with din := a.din } (rejectFault e)) ∨
    (∃ i, decode a.cmd = .ok i ∧ s.accept a = exec i { s with din := a.din }) := by
  cases h : decode a.cmd with
  | error e => exact .inl ⟨e, rfl, by simp [State.accept, h]⟩
  | ok i => exact .inr ⟨i, rfl, by simp [State.accept, h]⟩

/-- The next states of an accepted transaction: the command completes, or a fault is taken. -/
theorem accept_next_cases {s t : State} {a : Transaction} (h : s.accept a = .next t) :
    (∃ A d, t = { s with din := a.din }.complete A d) ∨ ∃ f, t = { s with din := a.din }.takeFault f := by
  rcases accept_cases s a with ⟨e, -, he⟩ | ⟨i, -, hi⟩
  · rw [he] at h
    exact .inr ⟨rejectFault e, (Host.Outcome.next.inj h).symm⟩
  · exact exec_next_cases (hi ▸ h)

end Sys2Proof.Machine
end

