-- ==== Sys2Proof/Laws/Checks.lean ====
section
/-! SUPPORT. The decoder against the checks of 30_encoding.md R86 read as numbers, and the operand checks
against the DIN shapes of R84. -/

namespace Sys2Proof.Machine

theorem opField_eq_iff (w : CmdWord) (n : BitVec 8) : opField w = n ↔ w.toNat % 2 ^ 8 = n.toNat := by
  rw [← BitVec.toNat_inj, toNat_opField]

/-- The mask of the decoder is the reserved part of the word. -/
theorem mustBeZero_iff (w : CmdWord) :
    w &&& mustBeZero (opField w) = 0 ↔ reservedPart (w.toNat % 2 ^ 8) w.toNat = 0 := by
  have e1 : opField w = 0x14 ↔ w.toNat % 2 ^ 8 = 0x14 := opField_eq_iff w 0x14
  have e2 : opField w = 0x18 ↔ w.toNat % 2 ^ 8 = 0x18 := opField_eq_iff w 0x18
  have e3 : opField w = 0x40 ↔ w.toNat % 2 ^ 8 = 0x40 := opField_eq_iff w 0x40
  simp only [mustBeZero, reservedPart, e1, e2, e3]
  by_cases h1 : w.toNat % 2 ^ 8 = 0x14 ∨ w.toNat % 2 ^ 8 = 0x18
  · rw [if_pos h1, and_from_13, if_pos h1]
  · rw [if_neg h1, if_neg h1]
    by_cases h2 : w.toNat % 2 ^ 8 = 0x40
    · rw [if_pos h2, and_8_to_15, if_pos h2]
    · rw [if_neg h2, and_from_8, if_neg h2]

/-- No command is selected exactly when the opcode is not in the map. -/
theorem selectByOpcode_none_iff (w : CmdWord) :
    selectByOpcode w = none ↔ w.toNat % 2 ^ 8 ∉ legalOpcodes := by
  rw [← toNat_opField]
  unfold selectByOpcode legalOpcodes
  split <;> simp_all

theorem withBits_of_not {n : Nat} {s : State} {k} (h : ¬ IsBits n s.din) :
    withBits n s k = raise s .dataShape := by
  rcases withBits_cases n s k with ⟨v, hv, hl, -⟩ | ⟨-, e⟩
  · rw [hv] at h
    exact absurd hl h
  · exact e

theorem withBytes_of_not {s : State} {k} (h : ¬ IsMessage s.cfg s.din) :
    withBytes s k = raise s .dataShape := by
  rcases withBytes_cases s k with ⟨m, hm, hl, -⟩ | ⟨-, e⟩
  · rw [hm] at h
    exact absurd ((admitsLength_iff _ _).1 hl) h
  · exact e

/-- The outcome of a command that ran in a block that is not halted. -/
theorem ran_of_running {s : State} (h : s.fcode = 0) (A : StateBits) (d : Port) :
    ran s A d = .next { s with S := A, din := .none, response := some ⟨0, d⟩ } := by
  simp [ran, State.complete, State.status, h]

/-- Runs compose. -/
theorem after_trans {n m : Nat} {s t u : State} (h : After n s t) (h' : After m t u) :
    After (n + m) s u := by
  induction n generalizing s with
  | zero =>
    change t = s at h
    subst h
    simpa using h'
  | succ n ih =>
    obtain ⟨v, hv, hr⟩ := h
    rw [Nat.succ_add]
    exact ⟨v, hv, ih hr⟩

end Sys2Proof.Machine
end

