-- ==== Sys2Proof/Laws/Codec.lean ====
section
/-! SUPPORT. The bits of a vector as a sequence, the vector of a sequence, and slices of a sequence. -/

namespace Sys2Proof.Machine

@[simp] theorem length_toBits {n : Nat} (v : BitVec n) : (toBits v).length = n := by simp [toBits]

theorem getD_toBits {n : Nat} (v : BitVec n) (i : Nat) : (toBits v).getD i false = v.getLsbD i := by
  rcases Nat.lt_or_ge i n with h | h
  · simp [toBits, h]
  · simp [toBits, h]

theorem testBit_bitsToNat (v : List Bool) (i : Nat) : (bitsToNat v).testBit i = v.getD i false := by
  induction v generalizing i with
  | nil => simp [bitsToNat]
  | cons b v ih =>
    cases i with
    | zero => cases b <;> simp [bitsToNat, Nat.testBit_zero, Nat.add_mod]
    | succ i =>
      have h : (b.toNat + 2 * bitsToNat v) / 2 = bitsToNat v := by cases b <;> (simp; try omega)
      simp [bitsToNat, Nat.testBit_succ, h, ih]

theorem getLsbD_ofBits (n : Nat) (v : List Bool) (i : Nat) :
    (ofBits n v).getLsbD i = (decide (i < n) && v.getD i false) := by
  simp only [ofBits, BitVec.getLsbD_ofNat, testBit_bitsToNat]

/-- Two bit sequences of one length with the same bits are one. -/
theorem bits_ext {v w : List Bool} (hl : v.length = w.length)
    (h : ∀ i < v.length, v.getD i false = w.getD i false) : v = w := by
  refine List.ext_getElem hl fun i hv hw => ?_
  simpa [List.getD_eq_getElem?_getD, hv, hw] using h i hv

theorem toBits_ofBits {n : Nat} {v : List Bool} (h : v.length = n) : toBits (ofBits n v) = v := by
  refine bits_ext (by simp [h]) fun i hi => ?_
  rw [getD_toBits, getLsbD_ofBits]
  simp_all

theorem ofBits_toBits {n : Nat} (v : BitVec n) : ofBits n (toBits v) = v := by
  refine BitVec.eq_of_getLsbD_eq fun i hi => ?_
  rw [getLsbD_ofBits, getD_toBits, decide_eq_true hi, Bool.true_and]

theorem length_slice {α : Type} (i n : Nat) (a : List α) : (slice i n a).length = min n (a.length - i) := by
  simp [slice]

theorem getD_slice {α : Type} (i n j : Nat) (a : List α) (x : α) (h : j < n) :
    (slice i n a).getD j x = a.getD (i + j) x := by
  simp [slice, List.getD_eq_getElem?_getD, h]

@[simp] theorem bytesToBits_nil : bytesToBits [] = [] := rfl

@[simp] theorem bytesToBits_cons (b : Byte) (m : List Byte) :
    bytesToBits (b :: m) = toBits b ++ bytesToBits m := rfl

theorem bytesToBits_append (m n : List Byte) : bytesToBits (m ++ n) = bytesToBits m ++ bytesToBits n := by
  simp [bytesToBits]

@[simp] theorem length_bitsToBytes (b : List Bool) : (bitsToBytes b).length = b.length / 8 := by
  simp [bitsToBytes]

theorem getD_bitsToBytes (b : List Bool) {k : Nat} (h : k < b.length / 8) :
    (bitsToBytes b).getD k 0 = ofBits 8 (slice (8 * k) 8 b) := by
  simp [bitsToBytes, List.getD_eq_getElem?_getD, h]

end Sys2Proof.Machine
end

