-- ==== Sys2Proof/Laws/Lanes.lean ====
section
/-! SUPPORT. The views of a state array agree: bits, lanes, and the array made of lanes. -/

namespace Sys2Proof.Machine

theorem bitIndex_lt (x y : Fin 5) (z : Fin 64) : bitIndex x y z < 1600 := by
  unfold bitIndex; omega

theorem getLsbD_laneReg (A : StateBits) (k : Nat) {z : Nat} (hz : z < 64) :
    (laneReg A k).getLsbD z = A.getLsbD (64 * k + z) := by
  simp [laneReg, hz]

theorem getLsbD_lane (A : StateBits) (x y : Fin 5) (z : Fin 64) :
    (lane A x y).getLsbD z.val = bitAt A x y z := by
  rw [lane, getLsbD_laneReg A _ z.isLt, bitAt, bitIndex]

/-- The bits of an array made of its first `n` lanes. -/
theorem getLsbD_packLanes (g : Nat → Lane) {n : Nat} (hn : n ≤ 25) (i : Nat) :
    (packLanes g n).getLsbD i = (decide (i < 64 * n) && (g (i / 64)).getLsbD (i % 64)) := by
  induction n with
  | zero => simp [packLanes]
  | succ n ih =>
    rw [packLanes, BitVec.getLsbD_or, ih (by omega), BitVec.getLsbD_shiftLeft]
    rcases Nat.lt_or_ge i (64 * n) with h | h
    · simp [h, show i < 64 * (n + 1) by omega]
    · rcases Nat.lt_or_ge i (64 * (n + 1)) with h' | h'
      · have hd : i / 64 = n := by omega
        have hm : i % 64 = i - 64 * n := by omega
        simp [Nat.not_lt.2 h, h', hd, hm, show i < 1600 by omega]
        omega
      · have : (g n).getLsbD (i - 64 * n) = false := BitVec.getLsbD_of_ge _ _ (by omega)
        simp [Nat.not_lt.2 h', this, Nat.not_lt.2 h]

/-- The bits of an array made of 25 lanes. -/
theorem bitAt_ofLanes (f : Fin 5 → Fin 5 → Lane) (x y : Fin 5) (z : Fin 64) :
    bitAt (ofLanes f) x y z = (f x y).getLsbD z.val := by
  have hd : bitIndex x y z / 64 = 5 * y.val + x.val := by unfold bitIndex; omega
  have hm : bitIndex x y z % 64 = z.val := by unfold bitIndex; omega
  have hx : Fin.ofNat 5 (5 * y.val + x.val) = x := Fin.ext (by simp [Fin.ofNat])
  have hy : Fin.ofNat 5 ((5 * y.val + x.val) / 5) = y := Fin.ext (by simp [Fin.ofNat]; omega)
  have hlt := bitIndex_lt x y z
  rw [bitAt, ofLanes, getLsbD_packLanes _ (by omega), hd, hm, hx, hy]
  simp [hlt]

/-- The lanes of an array made of 25 lanes. -/
theorem lane_ofLanes (f : Fin 5 → Fin 5 → Lane) (x y : Fin 5) : lane (ofLanes f) x y = f x y :=
  BitVec.eq_of_getLsbD_eq fun z hz => by
    rw [getLsbD_lane (ofLanes f) x y ⟨z, hz⟩, bitAt_ofLanes]

/-- A linear index is the index of its coordinates. -/
theorem bitIndex_coordinates {i : Nat} (h : i < 1600) :
    bitIndex (Fin.ofNat 5 (i / 64)) (Fin.ofNat 5 (i / 320)) (Fin.ofNat 64 i) = i := by
  simp only [bitIndex, Fin.ofNat]; omega

/-- Two state arrays with the same lanes are one. -/
theorem state_ext_lanes {A B : StateBits} (h : ∀ x y, lane A x y = lane B x y) : A = B :=
  BitVec.eq_of_getLsbD_eq fun i hi => by
    have key := congrArg (fun v => v.getLsbD (Fin.ofNat 64 i).val)
      (h (Fin.ofNat 5 (i / 64)) (Fin.ofNat 5 (i / 320)))
    simpa only [getLsbD_lane, bitAt, bitIndex_coordinates hi] using key

/-- A rotated lane's bit `z` is its bit `z - n` (00_scope.md R12). -/
theorem getLsbD_rotl64 (v : Lane) {n : Nat} (hn : n < 64) (z : Fin 64) :
    (rotl64 v n).getLsbD z.val = v.getLsbD (z - Fin.ofNat 64 n).val := by
  have hv : (z - Fin.ofNat 64 n).val = if z.val < n then 64 - n + z.val else z.val - n := by
    simp only [Fin.sub_def, Fin.ofNat, Nat.mod_eq_of_lt hn]
    split <;> omega
  rw [rotl64, BitVec.getLsbD_rotateLeft, Nat.mod_eq_of_lt hn, hv]
  by_cases h : z.val < n <;> simp [h]

theorem getLsbD_rate (A : StateBits) {i : Nat} (h : i < 1088) : (rate A).getLsbD i = A.getLsbD i := by
  simp [rate, h]

end Sys2Proof.Machine
end

