-- ==== Sys2Proof/Laws/PerInstr.lean ====
section
/-! SUPPORT. A law of each command as syntax, one lemma for each constructor: its word has its opcode and
nothing in the fields it does not use (30_encoding.md R81, R87). -/

namespace Sys2Proof.Laws.WordOfRow

/-- The opcode of a row (30_encoding.md R87). -/
def opcode : Instr → BitVec 8
  | .init => 0x01
  | .loadState => 0x02
  | .readState => 0x03
  | .theta => 0x10
  | .rho => 0x11
  | .pi => 0x12
  | .chi => 0x13
  | .iota _ => 0x14
  | .round _ => 0x18
  | .permute => 0x20
  | .absorb => 0x30
  | .squeeze _ => 0x40
  | .pad => 0x50
  | .hash => 0x60

/-- The round field of a row: its operand for IOTA and ROUND, else 0. -/
def roundOf : Instr → BitVec 5
  | .init | .loadState | .readState | .theta | .rho | .pi | .chi => 0
  | .iota r => r
  | .round r => r
  | .permute | .absorb | .squeeze _ | .pad | .hash => 0

/-- The length field of a row: its operand for SQUEEZE, else 0. -/
def lengthOf : Instr → BitVec 16
  | .init | .loadState | .readState | .theta | .rho | .pi | .chi | .iota _ | .round _ | .permute
  | .absorb => 0
  | .squeeze n => n
  | .pad | .hash => 0

/-- The encoding of `i` holds the row's opcode and the row's operand fields. -/
def Statement (i : Instr) : Prop :=
  opField (encode i) = opcode i ∧ rndField (encode i) = roundOf i ∧ lenField (encode i) = lengthOf i

theorem init : Statement .init := by simp [Statement, encode, opcode, roundOf, lengthOf]
theorem loadState : Statement .loadState := by simp [Statement, encode, opcode, roundOf, lengthOf]
theorem readState : Statement .readState := by simp [Statement, encode, opcode, roundOf, lengthOf]
theorem theta : Statement .theta := by simp [Statement, encode, opcode, roundOf, lengthOf]
theorem rho : Statement .rho := by simp [Statement, encode, opcode, roundOf, lengthOf]
theorem pi : Statement .pi := by simp [Statement, encode, opcode, roundOf, lengthOf]
theorem chi : Statement .chi := by simp [Statement, encode, opcode, roundOf, lengthOf]
theorem iota (r : BitVec 5) : Statement (.iota r) := by simp [Statement, encode, opcode, roundOf, lengthOf]
theorem round (r : BitVec 5) : Statement (.round r) := by simp [Statement, encode, opcode, roundOf, lengthOf]
theorem permute : Statement .permute := by simp [Statement, encode, opcode, roundOf, lengthOf]
theorem absorb : Statement .absorb := by simp [Statement, encode, opcode, roundOf, lengthOf]
theorem squeeze (n : BitVec 16) : Statement (.squeeze n) := by
  simp [Statement, encode, opcode, roundOf, lengthOf]
theorem pad : Statement .pad := by simp [Statement, encode, opcode, roundOf, lengthOf]
theorem hash : Statement .hash := by simp [Statement, encode, opcode, roundOf, lengthOf]

end Sys2Proof.Laws.WordOfRow
end

