-- ==== Sys2Proof/Tests/Slice0.lean ====
section
/-! SUPPORT. Tests of the model against the vectors of spec/95_test_vectors.md (each named in its comment),
words written out from spec/30_encoding.md, and for each statement a state that meets its hypotheses. -/

namespace Sys2Proof.Tests

open Sys2Proof Sys2Proof.Machine

-- Well-formedness: the one check refuses an ill-formed command (30_encoding.md R82)

theorem test_wellFormed_refuses_iota_24 : (Instr.iota 24).wellFormed = false := by decide
theorem test_wellFormed_refuses_round_31 : (Instr.round 31).wellFormed = false := by decide
theorem test_wellFormed_admits_the_last_round :
    (Instr.iota 23).wellFormed = true ∧ (Instr.round 23).wellFormed = true := by decide

-- Decoding: words written bit by bit, LEN RSV RND OP (30_encoding.md R81, R87), at least one a row

theorem test_decode_state_commands :
    decode 0b0000000000000000_000_00000_00000001#32 = .ok .init ∧
    decode 0b0000000000000000_000_00000_00000010#32 = .ok .loadState ∧
    decode 0b0000000000000000_000_00000_00000011#32 = .ok .readState := by decide

theorem test_decode_round_steps :
    decode 0b0000000000000000_000_00000_00010000#32 = .ok .theta ∧
    decode 0b0000000000000000_000_00000_00010001#32 = .ok .rho ∧
    decode 0b0000000000000000_000_00000_00010010#32 = .ok .pi ∧
    decode 0b0000000000000000_000_00000_00010011#32 = .ok .chi ∧
    decode 0b0000000000000000_000_10110_00010100#32 = .ok (.iota 22) := by decide

theorem test_decode_permutation :
    decode 0b0000000000000000_000_01001_00011000#32 = .ok (.round 9) ∧
    decode 0b0000000000000000_000_00000_00100000#32 = .ok .permute := by decide

theorem test_decode_sponge_and_hash :
    decode 0b0000000000000000_000_00000_00110000#32 = .ok .absorb ∧
    decode 0b1000000000000001_000_00000_01000000#32 = .ok (.squeeze 32769) ∧
    decode 0b0000000000000000_000_00000_01010000#32 = .ok .pad ∧
    decode 0b0000000000000000_000_00000_01100000#32 = .ok .hash := by decide

/-- EN-8, EN-9, EN-12: the encoder writes the listed words. -/
theorem test_encode_listed_words :
    encode (.iota 5) = 0x00000514 ∧ encode (.round 23) = 0x00001718 ∧
    encode (.squeeze 2184) = 0x08880040 ∧ encode (.squeeze 65535) = 0xFFFF0040 := by decide

/-- The host's numbering of a row's word; a word of more than 32 bits is no command. -/
theorem test_decodeTableWord :
    decodeTableWord 32 0x00000018 = some (.round 0) ∧ decodeTableWord 32 0x00000101 = none ∧
    decodeTableWord 40 0x20 = none := by decide

-- One step on small states

/-- The state, not halted, that holds `A` and to which the host sends `w` with `d`. -/
def sending (A : StateBits) (w : CmdWord) (d : Port) : State :=
  { State.reset with S := A, pending := [.transact ⟨w, d⟩] }

/-- The state, not halted, that holds `A` and in whose port `d` stands. -/
def holding (A : StateBits) (d : Port) : State := { State.reset with S := A, din := d }

/-- What a field of the next state is, `none` when a step answers none. -/
def afterStep {α : Type} (s : State) (f : State → α) : Option α :=
  match step s with
  | .next t => some (f t)
  | .fault _ => none
  | .refused _ => none

/-- The state with the lane registers given, in order, and 0 in the others. -/
def lanes (w : List Lane) : StateBits := ofBits 1600 (laneWordBits w)

/-- The lane registers of a state. -/
def laneList (A : StateBits) : List Lane := (List.range 25).map (laneReg A)

/-- `lanes-k` of 95_test_vectors.md. -/
def lanesK : StateBits := lanes ((List.range 25).map (BitVec.ofNat 64))

/-- INIT, corner cases of 40_state_commands.md R110: any state becomes all zero. -/
theorem test_init : afterStep (sending lanesK 0x00000001 .none) (fun t => (t.S, t.fcode)) = some (0, 0) := by
  decide +kernel

/-- LOAD_STATE, the example of 40_state_commands.md R111. -/
theorem test_loadState :
    afterStep (sending 1 0x00000002 (.bits (laneWordBits ((List.range 25).map (BitVec.ofNat 64)))))
      (fun t => laneList t.S) = some ((List.range 25).map (BitVec.ofNat 64)) := by decide +kernel

/-- READ_STATE, 40_state_commands.md R112: bit 70 of the state is element 70 of DOUT. -/
theorem test_readState :
    afterStep (sending (BitVec.ofNat 1600 (2 ^ 70)) 0x00000003 .none) (fun t => t.response) =
      some (some ⟨0, .bits (List.replicate 70 false ++ [true] ++ List.replicate 1529 false)⟩) := by
  decide +kernel

/-- TH-2: bit 63 of lane (2,3). -/
theorem test_theta_wraps :
    afterStep (sending (lanes (List.replicate 17 0 ++ [0x8000000000000000])) 0x00000010 .none)
      (fun t => laneList t.S) =
    some [0, 1, 0, 0x8000000000000000, 0, 0, 1, 0, 0x8000000000000000, 0, 0, 1, 0, 0x8000000000000000, 0,
      0, 1, 0x8000000000000000, 0x8000000000000000, 0, 0, 1, 0, 0x8000000000000000, 0] := by decide +kernel

/-- TH-1: a single bit at (0,0,0). -/
theorem test_theta_single_bit :
    afterStep (sending 1 0x00000010 .none) (fun t => laneList t.S) =
    some [1, 1, 0, 0, 2, 0, 1, 0, 0, 2, 0, 1, 0, 0, 2, 0, 1, 0, 0, 2, 0, 1, 0, 0, 2] := by decide +kernel

/-- RH-1: every lane 1. -/
theorem test_rho_offsets :
    afterStep (sending (lanes (List.replicate 25 1)) 0x00000011 .none) (fun t => laneList t.S) =
    some [0x0000000000000001, 0x0000000000000002, 0x4000000000000000, 0x0000000010000000, 0x0000000008000000,
      0x0000001000000000, 0x0000100000000000, 0x0000000000000040, 0x0080000000000000, 0x0000000000100000,
      0x0000000000000008, 0x0000000000000400, 0x0000080000000000, 0x0000000002000000, 0x0000008000000000,
      0x0000020000000000, 0x0000200000000000, 0x0000000000008000, 0x0000000000200000, 0x0000000000000100,
      0x0000000000040000, 0x0000000000000004, 0x2000000000000000, 0x0100000000000000, 0x0000000000004000] := by
  decide +kernel

/-- RH-2: lane (1,0), bit 63 wraps to bit 0. -/
theorem test_rho_wraps :
    afterStep (sending (lanes [0, 0x8000000000000000]) 0x00000011 .none) (fun t => lane t.S 1 0) = some 1 := by
  decide +kernel

/-- PI-2: lanes-k. -/
theorem test_pi_lanes :
    afterStep (sending lanesK 0x00000012 .none) (fun t => laneList t.S) =
    some [0x00, 0x06, 0x0C, 0x12, 0x18, 0x03, 0x09, 0x0A, 0x10, 0x16, 0x01, 0x07, 0x0D, 0x13, 0x14,
      0x04, 0x05, 0x0B, 0x11, 0x17, 0x02, 0x08, 0x0E, 0x0F, 0x15] := by decide +kernel

/-- CH-3: a mixed row. -/
theorem test_chi_row :
    afterStep (sending (lanes [0xF0F0F0F0F0F0F0F0, 0xFF00FF00FF00FF00, 0xFFFF0000FFFF0000]) 0x00000013 .none)
      (fun t => laneList t.S) =
    some ([0xF00FF0F0F00FF0F0, 0xFF00FF00FF00FF00, 0xFFFF0000FFFF0000, 0xF0F0F0F0F0F0F0F0, 0x0F000F000F000F00] ++
      List.replicate 20 0) := by decide +kernel

/-- IO-5: IOTA 5 on the all-one state. -/
theorem test_iota_on_ones :
    afterStep (sending (BitVec.allOnes 1600) 0x00000514 .none) (fun t => laneList t.S) =
    some (0xFFFFFFFF7FFFFFFE :: List.replicate 24 0xFFFFFFFFFFFFFFFF) := by decide +kernel

/-- RD-3: ROUND 5 on lanes-k. -/
theorem test_round_lanes :
    afterStep (sending lanesK 0x00000518 .none) (fun t => laneList t.S) =
    some [0x000018008000001B, 0x0000E00001800000, 0x00001800000CC000, 0x000000000180001A, 0x0000E000000CC000,
      0x00000001D0000080, 0x0003000002200000, 0x2000000000000083, 0x00030001D0000000, 0x2000000002200003,
      0x0000000026000012, 0x0000000000003A00, 0x0000000026380000, 0x0000000000003812, 0x0000000000380200,
      0x0000000178000C00, 0x000001F0000F0000, 0x0900000000000C00, 0x00000001780F0000, 0x090001F000000000,
      0x4000128000000003, 0x0B00280000000000, 0x0000128000000074, 0x40002A0000000003, 0x0B00000000000074] := by
  decide +kernel

/-- PERM-1: the permutation of the all-zero state. -/
theorem test_permute_zero :
    afterStep (sending 0 0x00000020 .none) (fun t => laneList t.S) =
    some [0xF1258F7940E1DDE7, 0x84D5CCF933C0478A, 0xD598261EA65AA9EE, 0xBD1547306F80494D, 0x8B284E056253D057,
      0xFF97A42D7F8E6FD4, 0x90FEE5A0A44647C4, 0x8C5BDA0CD6192E76, 0xAD30A6F71B19059C, 0x30935AB7D08FFC64,
      0xEB5AA93F2317D635, 0xA9A6E6260D712103, 0x81A57C16DBCF555F, 0x43B831CD0347C826, 0x01F22F1A11A5569F,
      0x05E5635A21D9AE61, 0x64BEFEF28CC970F2, 0x613670957BC46611, 0xB87C5A554FD00ECB, 0x8C3EE88A1CCF32C8,
      0x940C7922AE3A2614, 0x1841F924A2C509E4, 0x16F53526E70465C2, 0x75F644E97F30A13B, 0xEAF1FF7B5CECA249] := by
  decide +kernel

/-- AB-1: the padded block of the bytes 0..31 absorbed into the all-zero state, the block given as the 17
rate words of 95_test_vectors.md section 6. -/
theorem test_absorb_block :
    afterStep (sending 0 0x00000030 (.bits (laneWordBits
      ([0x0706050403020100, 0x0F0E0D0C0B0A0908, 0x1716151413121110, 0x1F1E1D1C1B1A1918, 1] ++
        List.replicate 11 0 ++ [0x8000000000000000])))) (fun t => (lane t.S 0 0, lane t.S 4 4)) =
    some (0xEB46A17F59AAE18A, 0xA972C4FAFBCEB8F6) := by decide +kernel

/-- SQ-3: 1152 bits from the all-zero state; the last 64 are lane (0,0) of PERM-1. -/
theorem test_squeeze_past_the_rate :
    afterStep (sending 0 0x04800040 .none) (fun t => (t.response, t.S)) =
    some (some ⟨0, .bits (List.replicate 1088 false ++ toBits 0xF1258F7940E1DDE7#64)⟩, 0) := by decide +kernel

/-- SQ-4: no bits. -/
theorem test_squeeze_nothing :
    afterStep (sending lanesK 0x00000040 .none) (fun t => t.response) = some (some ⟨0, .bits []⟩) := by
  decide +kernel

/-- SRC-1: the padded bytes 0..31. -/
theorem test_pad_32_bytes :
    afterStep (sending 5 0x00000050 (.bytes ((List.range 32).map (BitVec.ofNat 8)))) (fun t => (t.response, t.S)) =
    some (some ⟨0, .bytes ((List.range 32).map (BitVec.ofNat 8) ++ [1] ++ List.replicate 102 0 ++ [128])⟩, 5) := by
  decide +kernel

/-- 95_test_vectors.md section 5, n = 135: the two suffix bits share a byte. -/
theorem test_pad_135_bytes :
    padBytes (List.replicate 135 7) = List.replicate 135 7 ++ [0x81] := by decide +kernel

/-- SRC-2: HASH "test", which decides conflict C1; P4: `S` stays. -/
theorem test_hash_test :
    afterStep (sending 1 0x00000060 (.bytes [0x74, 0x65, 0x73, 0x74])) (fun t => (t.response, t.S)) =
    some (some ⟨0, .bytes
      ([0x9c, 0x22, 0xff, 0x5f, 0x21, 0xf0, 0xb8, 0x1b, 0x11, 0x3e, 0x63, 0xf7, 0xdb, 0x6d, 0xa9, 0x4f] ++
       [0xed, 0xef, 0x11, 0xb2, 0x11, 0x9b, 0x40, 0x88, 0xb8, 0x96, 0x64, 0xfb, 0x9a, 0x3c, 0xb6, 0x58])⟩, 1) := by
  decide +kernel

/-- HS-8: 136 zero bytes, two blocks; the first four bytes of the digest. -/
theorem test_hash_two_blocks :
    (computeHash (List.replicate 136 0)).take 4 = [0x3a, 0x59, 0x12, 0xa7] := by decide +kernel

-- Faults

/-- The word, the operand and the code of a faulting transaction (FT-1 to FT-14, FT-16). -/
def faultVectors : List (CmdWord × Port × BitVec 8) :=
  [(0x00000000, .none, 1), (0x000018FF, .bits (List.replicate 1088 false), 1), (0x00000015, .none, 1),
   (0x00000101, .none, 2), (0x00002014, .bits (List.replicate 1088 false), 2), (0x00001860, .bytes [], 2),
   (0x00000140, .none, 2), (0x00010060, .bytes [], 2)] ++
  [(0x00001814, .none, 3), (0x00001F18, .none, 3), (0x00001818, .bits (List.replicate 1600 false), 3),
   (0x00000030, .bits (List.replicate 1087 false), 4), (0x00000002, .bytes (List.replicate 200 0), 4),
   (0x00000010, .bits (List.replicate 1600 false), 4), (0x00000030, .none, 4)]

/-- FT-1 to FT-14, FT-16: the code is in FCODE and STATUS, there is no DOUT, and `S` stays. -/
theorem test_fault_vectors : ∀ v ∈ faultVectors,
    afterStep (sending 9 v.1 v.2.1) (fun t => (t.S, t.fcode, t.response)) =
      some (9, v.2.2, some ⟨v.2.2, .none⟩) := by decide +kernel

/-- FT-15: a message of 101 bytes faults only when the bound is 100. -/
theorem test_message_bound :
    afterStep { sending 0 0x00000050 (.bytes (List.replicate 101 0)) with cfg := ⟨some 100⟩ } (·.fcode) = some 4 ∧
    afterStep { sending 0 0x00000050 (.bytes (List.replicate 100 0)) with cfg := ⟨some 100⟩ } (·.fcode) = some 0 ∧
    afterStep (sending 0 0x00000050 (.bytes (List.replicate 101 0))) (·.fcode) = some 0 := by decide +kernel

/-- P6, step 4: a halted block takes no step for PERMUTE. -/
theorem test_halted_takes_no_step :
    afterStep { sending 1 0x00000020 .none with fcode := 3 } (fun t => (t.S, t.fcode, t.response, t.pending)) =
      some (1, 3, none, []) := by decide +kernel

/-- P6, step 5: reset clears `S` and FCODE. -/
theorem test_reset_ends_the_halt :
    afterStep { State.reset with S := 1, fcode := 3, pending := [.reset] } (fun t => (t.S, t.fcode)) =
      some (0, 0) := by decide +kernel

/-- The words that stand for the fourteen rows, each run as the first command after reset. -/
theorem test_every_row_runs_after_reset :
    ∀ w ∈ [0x01, 0x02, 0x03, 0x10, 0x11, 0x12, 0x13, 0x14, 0x18, 0x40, 0x50],
      afterStep (State.reset.withFetchWord 32 w) (·.fcode) = some 0 := by decide +kernel

-- Tables against facts from outside the rules

/-- 93_implementation_defined.md G2: the offset of the t-th lane on the path (x,y) -> (y, 2x+3y) from (1,0) is
(t+1)(t+2)/2 mod 64. -/
theorem test_offsets_along_the_path :
    ∀ t : Fin 24, let p := (fun q : Fin 5 × Fin 5 => (q.2, 2 * q.1 + 3 * q.2))^[t.val] (1, 0)
      offset p.1 p.2 = (t.val + 1) * (t.val + 2) / 2 % 64 := by decide +kernel

/-- 41_round_steps.md R137: rows of the table of destinations. -/
theorem test_pi_destinations :
    (List.finRange 5).map (fun x : Fin 5 => ((3 : Fin 5), 2 * x + 3 * (3 : Fin 5))) =
      [(3, 4), (3, 1), (3, 3), (3, 0), (3, 2)] := by decide

-- The assembler

/-- 30_encoding.md R91: ROUNDS a, b is ROUND a; ...; ROUND b. -/
theorem test_rounds_expand :
    expandLine (.rounds 3 5) =
      [⟨0x00000318, .none⟩, ⟨0x00000418, .none⟩, ⟨0x00000518, .none⟩] := by decide +kernel

/-- P5: 136 zero bytes make two blocks, so SPONGE is four transactions. -/
theorem test_sponge_expands :
    (expandLine (.sponge (.zeros 136) 256)).map (·.cmd) =
      [0x00000001, 0x00000030, 0x00000030, 0x01000040] := by decide +kernel

/-- 30_encoding.md R90: the ASCII code of each character. -/
theorem test_ascii_operand : byteOperandBytes (.ascii ['t', 'e', 's', 't']) = [0x74, 0x65, 0x73, 0x74] := by
  decide

-- States that meet the hypotheses of the statements. `busy` is a state that holds a nonzero array.

/-- A nonzero state array whose lanes are all different. -/
def busyS : StateBits := lanesK

/-- A state that is not halted, with an operand in its port. -/
def busy (d : Port) : State := holding busyS d

theorem witness_HostResetClearsStateAndHalt :
    ∃ (s : State) (rest : List HostAction), s.fcode = 4 ∧ s.S ≠ 0 ∧ s.pending = .reset :: rest :=
  ⟨{ State.reset with S := 1, fcode := 4, pending := [.reset, .reset] }, [.reset], by decide +kernel⟩

theorem witness_StepRunsTheDecodedCommand :
    ∃ (s : State) (w : CmdWord) (d : Port) (rest : List HostAction) (i : Instr),
      s.fcode = 0 ∧ s.pending = .transact ⟨w, d⟩ :: rest ∧ decode w = .ok i :=
  ⟨sending 1 0x01000040 .none, 0x01000040, .none, [], .squeeze 256, by decide +kernel⟩

theorem witness_HaltedBlockAnswersNoTransaction :
    ∃ (s : State) (t : Transaction) (rest : List HostAction),
      s.fcode ≠ 0 ∧ s.pending = .transact t :: rest :=
  ⟨{ sending 1 0x20 .none with fcode := 1 }, ⟨0x20, .none⟩, [], by decide +kernel⟩

theorem witness_IdleBlockKeepsItsState : ∃ s : State, s.pending = [] ∧ s.S ≠ 0 :=
  ⟨{ State.reset with S := 1 }, by decide +kernel⟩

theorem witness_HaltLastsUntilReset :
    (∃ s t : State, s.fcode ≠ 0 ∧ HostAction.reset ∉ s.pending.take (0 + 1) ∧ After (0 + 1) s t) ∧
    ∃ (s : State) (rest : List HostAction), s.fcode ≠ 0 ∧ s.pending = .reset :: rest :=
  ⟨⟨{ sending 1 0x20 .none with fcode := 3 }, { State.reset with S := 1, fcode := 3 }, by decide, by decide,
      ⟨_, rfl, rfl⟩⟩,
    { State.reset with fcode := 3, pending := [.reset] }, [], by decide, rfl⟩

theorem witness_FcodeIsWrittenByFaultAndResetOnly :
    (∃ s t : State, step s = .next t ∧ t.fcode ≠ s.fcode ∧ s.fcode = 0 ∧ t.response ≠ none) ∧
    ∃ s t : State, step s = .next t ∧ t.fcode ≠ s.fcode ∧ t.fcode = 0 :=
  ⟨⟨sending 1 0x0 .none, _, rfl, by decide⟩,
    { State.reset with fcode := 4, pending := [.reset] }, _, rfl, by decide⟩

theorem witness_StepKeepsTheConfiguration :
    ∃ s t : State, step s = .next t ∧ s.cfg = ⟨some 100⟩ :=
  ⟨{ State.reset with cfg := ⟨some 100⟩, pending := [.reset] }, _, rfl, rfl⟩

theorem witness_StepKeepsTheInvariant :
    ∃ s t : State, Inv s ∧ step s = .next t ∧ s.fcode = 3 :=
  ⟨{ State.reset with fcode := 3, pending := [.reset] }, _,
    ⟨.inr (.inr (.inr (.inl rfl))), rfl, by simp [State.reset], by simp [State.reset]⟩, rfl, rfl⟩

theorem witness_FaultsDoNotDependOnTheStateArray :
    ∃ (s t : State) (A : StateBits), step s = .next t ∧ t.fcode = 2 ∧ s.S ≠ A :=
  ⟨sending 1 0x00000101 .none, _, 0, rfl, by decide +kernel⟩

theorem witness_ExampleWordsDecodeAsListed :
    ∃ s : State, s.fcode = 0 ∧ s.pending = [.transact ⟨0x00001814#32, .none⟩] :=
  ⟨sending 1 0x00001814 .none, by decide +kernel⟩

theorem witness_EncodeOfDecodeGivesTheWordBack : ∃ (w : CmdWord) (i : Instr), decode w = .ok i :=
  ⟨0xFFFF0040, .squeeze 65535, by decide⟩

theorem witness_OperandFieldsAreReadUnsigned :
    decode 0x00001F14#32 = .ok (.iota 31) ∧ decode 0x00000018#32 = .ok (.round 0) ∧
    decode 0xFFFF0040#32 = .ok (.squeeze 65535) := by decide

theorem witness_TransactionIsCheckedInOrderAndThenExecutes :
    (∀ v ∈ ([(0x15, 1), (0x2014, 2), (0x1F18, 3)] : List (CmdWord × BitVec 8)),
      ∃ (s : State) (rest : List HostAction), s.fcode = 0 ∧ s.pending = .transact ⟨v.1, .none⟩ :: rest ∧
        CheckResult s.cfg v.1.toNat .none v.2 ∧ v.2 ≠ 0) ∧
    (∃ (s : State) (rest : List HostAction), s.fcode = 0 ∧ s.pending = .transact ⟨0x30, .none⟩ :: rest ∧
      CheckResult s.cfg (0x30#32).toNat .none 4) ∧
    (∃ (s : State) (rest : List HostAction), s.fcode = 0 ∧ s.pending = .transact ⟨0x1718, .none⟩ :: rest ∧
      CheckResult s.cfg (0x1718#32).toNat .none 0) := by
  refine ⟨fun v hv => ⟨sending 1 v.1 .none, [], rfl, rfl, ?_⟩, ⟨sending 1 0x30 .none, [], rfl, rfl, ?_⟩,
    ⟨sending 1 0x1718 .none, [], rfl, rfl, ?_⟩⟩
  · simp only [List.mem_cons, List.not_mem_nil, or_false] at hv
    rcases hv with rfl | rfl | rfl <;> simp [CheckResult, legalOpcodes, reservedPart]
  · simp [CheckResult, legalOpcodes, reservedPart, ShapeOk, IsBits]
  · simp [CheckResult, legalOpcodes, reservedPart, ShapeOk]

theorem witness_DoutHasTheShapeOfItsCommand :
    ∃ (i : Instr) (s t : State), s.fcode = 0 ∧ exec i s = .next t ∧ t.fcode = 0 :=
  ⟨.readState, busy .none, _, rfl, rfl, rfl⟩

/-- The commands without an operand: a state where they complete, and one where they fault. It serves
InitZeroesTheStateArray and, by name, the statements below. -/
theorem witness_InitZeroesTheStateArray :
    (∃ s : State, s.fcode = 0 ∧ s.din = .none) ∧ ∃ s : State, s.fcode = 0 ∧ s.din ≠ .none :=
  ⟨⟨busy .none, rfl, rfl⟩, busy (.bits []), rfl, by decide⟩

theorem witness_ReadStateReturnsTheStateArray :
    (∃ s : State, s.fcode = 0 ∧ s.din = .none) ∧ ∃ s : State, s.fcode = 0 ∧ s.din ≠ .none :=
  witness_InitZeroesTheStateArray

theorem witness_RhoRotatesEveryLaneByItsOffset :
    (∃ s : State, s.fcode = 0 ∧ s.din = .none) ∧ ∃ s : State, s.fcode = 0 ∧ s.din ≠ .none :=
  witness_InitZeroesTheStateArray

theorem witness_PiMovesEveryLane :
    (∃ s : State, s.fcode = 0 ∧ s.din = .none) ∧ ∃ s : State, s.fcode = 0 ∧ s.din ≠ .none :=
  witness_InitZeroesTheStateArray

theorem witness_ChiMixesEveryRow :
    (∃ s : State, s.fcode = 0 ∧ s.din = .none) ∧ ∃ s : State, s.fcode = 0 ∧ s.din ≠ .none :=
  witness_InitZeroesTheStateArray

theorem witness_PermuteAppliesTwentyFourRoundsInOrder :
    (∃ s : State, s.fcode = 0 ∧ s.din = .none) ∧ ∃ s : State, s.fcode = 0 ∧ s.din ≠ .none :=
  witness_InitZeroesTheStateArray

theorem witness_ThetaXorsTheTwoColumnParities :
    (∃ (s : State) (C : Fin 5 → Fin 64 → Bool), s.fcode = 0 ∧ s.din = .none ∧
      ∀ x z, C x z = (bitAt s.S x 0 z ^^ (bitAt s.S x 1 z ^^ (bitAt s.S x 2 z ^^
        (bitAt s.S x 3 z ^^ bitAt s.S x 4 z))))) ∧
    ∃ s : State, s.fcode = 0 ∧ s.din ≠ .none :=
  ⟨⟨busy .none, _, rfl, rfl, fun _ _ => rfl⟩, busy (.bytes []), rfl, by decide⟩

/-- The reserved-field clause of the command statements: one word for each shape of mask. -/
theorem witness_RejectsReserved :
    ((0x00000101#32).toNat % 2 ^ 8 = 0x01 ∧ reservedPart 0x01 (0x00000101#32).toNat ≠ 0) ∧
    ((0x00002014#32).toNat % 2 ^ 8 = 0x14 ∧ reservedPart 0x14 (0x00002014#32).toNat ≠ 0) ∧
    ((0x80000018#32).toNat % 2 ^ 8 = 0x18 ∧ reservedPart 0x18 (0x80000018#32).toNat ≠ 0) ∧
    ((0xFFFF8040#32).toNat % 2 ^ 8 = 0x40 ∧ reservedPart 0x40 (0xFFFF8040#32).toNat ≠ 0) := by decide

theorem witness_LoadStateReplacesTheStateArray :
    (∃ (s : State) (v : List Bool), s.fcode = 0 ∧ s.din = .bits v ∧ v.length = 1600) ∧
    ∃ s : State, s.fcode = 0 ∧ ¬ IsBits 1600 s.din :=
  ⟨⟨busy (.bits (List.replicate 1600 true)), _, rfl, rfl, List.length_replicate⟩,
    busy (.bits []), rfl, by simp [busy, holding, IsBits]⟩

theorem witness_LoadedLaneWordsLandInTheirLanes :
    ∃ (s : State) (w : Vector Lane 25) (rest : List HostAction), s.fcode = 0 ∧
      s.pending = (expandLine (.loadState w)).map .transact ++ rest :=
  ⟨{ State.reset with pending := (expandLine (.loadState (Vector.ofFn fun k => BitVec.ofNat 64 k.val))).map .transact },
    _, [], rfl, (List.append_nil _).symm⟩

theorem witness_IotaXorsTheRoundConstant :
    (∃ (s : State) (r : BitVec 5), r.toNat = 23 ∧ r.toNat < 24 ∧ s.fcode = 0 ∧ s.din = .none) ∧
    (∃ (s : State) (r : BitVec 5), r.toNat = 24 ∧ s.fcode = 0 ∧ 23 < r.toNat ∧ s.din ≠ .none) ∧
    ∃ (s : State) (r : BitVec 5), r.toNat = 23 ∧ s.fcode = 0 ∧ r.toNat ≤ 23 ∧ s.din ≠ .none :=
  ⟨⟨busy .none, 23, by decide, by decide, rfl, rfl⟩, ⟨busy (.bits []), 24, by decide, rfl, by decide, by decide⟩,
    busy (.bits []), 23, by decide, rfl, by decide, by decide⟩

theorem witness_RoundAppliesTheFiveStepsInOrder :
    (∃ (s : State) (r : BitVec 5), r.toNat = 23 ∧ r.toNat < 24 ∧ s.fcode = 0 ∧ s.din = .none) ∧
    (∃ (s : State) (r : BitVec 5), r.toNat = 24 ∧ s.fcode = 0 ∧ 23 < r.toNat ∧ s.din ≠ .none) ∧
    ∃ (s : State) (r : BitVec 5), r.toNat = 23 ∧ s.fcode = 0 ∧ r.toNat ≤ 23 ∧ s.din ≠ .none :=
  witness_IotaXorsTheRoundConstant

theorem witness_RoundConstantsAreTheTable :
    ∃ (r : Fin 24) (z : Fin 64), z.val = 63 ∧ (roundConstant r).getLsbD z.val = true :=
  ⟨23, 63, by decide⟩

theorem witness_LaneWordFormsOfTheSteps :
    ∃ (A : StateBits) (C : Fin 5 → Lane),
      ∀ x, C x = lane A x 0 ^^^ lane A x 1 ^^^ lane A x 2 ^^^ lane A x 3 ^^^ lane A x 4 :=
  ⟨busyS, _, fun _ => rfl⟩

theorem witness_KeccakFIsInjective : ∃ A B : StateBits, keccakF A = keccakF B := ⟨busyS, busyS, rfl⟩

theorem witness_StepsHaveTheEffectOfRound :
    ∃ (s : State) (r : Fin 24) (rest : List HostAction), s.fcode = 0 ∧
      s.pending = (expandLine (.steps r)).map .transact ++ rest :=
  ⟨{ State.reset with S := 1, pending := (expandLine (.steps 23)).map .transact }, 23, [], rfl,
    (List.append_nil _).symm⟩

theorem witness_RoundsHaveTheEffectOfPermute :
    ∃ (s : State) (rest : List HostAction), s.fcode = 0 ∧
      s.pending = (expandLine (.rounds 0 23)).map .transact ++ rest :=
  ⟨{ State.reset with S := 1, pending := (expandLine (.rounds 0 23)).map .transact }, [], rfl,
    (List.append_nil _).symm⟩

theorem witness_BytesToBitsIsLeastSignificantFirst :
    ∃ (m : List Byte) (k i : Nat), k < m.length ∧ i < 8 ∧ (bytesToBits m).getD (8 * k + i) false = true :=
  ⟨[0x01, 0x80], 1, 7, by decide⟩

theorem witness_BitsToBytesSumsTheBits :
    ∃ (b : List Bool) (n k : Nat), b.length = 8 * n ∧ k < n ∧ ((bitsToBytes b).getD k 0).toNat = 128 :=
  ⟨List.replicate 15 false ++ [true], 2, 1, by decide⟩

theorem witness_CodecRoundTrip : ∃ b : List Bool, b.length % 8 = 0 ∧ b ≠ [] :=
  ⟨List.replicate 16 true, by decide⟩

theorem witness_StateImageIsLittleEndianLanes :
    ∃ k j : Nat, k < 25 ∧ j < 8 ∧ k = 24 ∧ j = 7 := ⟨24, 7, by decide⟩

theorem witness_PadIsTheLeastTenStarOne :
    ∃ (m : List Bool) (k : Nat), k < ((-(m.length : Int) - 2) % 1088).toNat := ⟨[], 0, by decide⟩

theorem witness_PadLengthIsTheSmallestMultiple :
    ∃ (m : List Bool) (k : Nat), m.length % 1088 = 1087 ∧ k % 1088 = 0 ∧ m.length + 2 ≤ k :=
  ⟨List.replicate 1087 true, 2176, by rw [List.length_replicate], by decide, by rw [List.length_replicate]; decide⟩

theorem witness_PadReturnsTheMessageAndItsPadding :
    (∃ (s : State) (m : List Byte), s.fcode = 0 ∧ s.din = .bytes m ∧ IsMessage s.cfg s.din ∧
      m.length % 136 = 135) ∧
    (∃ (s : State) (m : List Byte), s.fcode = 0 ∧ s.din = .bytes m ∧ IsMessage s.cfg s.din ∧
      m.length % 136 ≠ 135) ∧
    (∃ s : State, s.fcode = 0 ∧ ¬ IsMessage s.cfg s.din ∧ s.din = .none) ∧
    ∃ s : State, s.fcode = 0 ∧ ¬ IsMessage s.cfg s.din ∧ s.din = .bytes [0] :=
  ⟨⟨busy (.bytes (List.replicate 135 7)), _, rfl, rfl, by simp [busy, holding, State.reset, IsMessage], by simp⟩,
    ⟨busy (.bytes []), _, rfl, rfl, by simp [busy, holding, State.reset, IsMessage], by simp⟩,
    ⟨busy .none, rfl, by simp [busy, holding, IsMessage], rfl⟩,
    { busy (.bytes [0]) with cfg := ⟨some 0⟩ }, rfl, by simp [busy, holding, IsMessage], rfl⟩

theorem witness_BlocksAreTheConsecutiveSlices :
    ∃ (p : List Bool) (k i j : Nat), p.length = 1088 * k ∧ i < k ∧ j < 1088 ∧ i = 1 ∧ j = 1087 :=
  ⟨List.replicate 2176 true, 2, 1, 1087, by rw [List.length_replicate], by decide, by decide, rfl, rfl⟩

theorem witness_AbsorbXorsTheRateAndPermutes :
    (∃ (s : State) (v : List Bool), s.fcode = 0 ∧ s.din = .bits v ∧ v.length = 1088) ∧
    ∃ s : State, s.fcode = 0 ∧ ¬ IsBits 1088 s.din :=
  ⟨⟨busy (.bits (List.replicate 1088 true)), _, rfl, rfl, List.length_replicate⟩,
    busy (.bits []), rfl, by simp [busy, holding, IsBits]⟩

theorem witness_BlockBytesMeetTheLanesInOrder :
    ∃ (m : List Byte) (k : Nat), m.length = 136 ∧ k < 136 ∧ m.getD k 0 = 7 :=
  ⟨List.replicate 136 7, 135, by decide +kernel⟩

theorem witness_SqueezeReadsTheRatesInOrder :
    (∃ (s : State) (n : BitVec 16) (i : Nat), s.fcode = 0 ∧ s.din = .none ∧ i < n.toNat ∧ i = 65534) ∧
    ∃ s : State, s.fcode = 0 ∧ s.din ≠ .none :=
  ⟨⟨busy .none, 65535, 65534, rfl, rfl, by decide, rfl⟩, busy (.bits []), rfl, by decide⟩

theorem witness_ReadsHaveNoSideEffect :
    (∃ s t : State, WritesNoState .readState ∧ exec .readState s = .next t ∧ t.fcode = s.fcode) ∧
    (∃ s t : State, WritesNoState (.squeeze 65535) ∧ exec (.squeeze 65535) s = .next t ∧ t.fcode = s.fcode) ∧
    (∃ s t : State, WritesNoState .pad ∧ exec .pad s = .next t ∧ t.fcode = s.fcode) ∧
    ∃ s t : State, WritesNoState .hash ∧ exec .hash s = .next t ∧ t.fcode = s.fcode :=
  ⟨⟨busy .none, _, trivial, rfl, rfl⟩, ⟨busy .none, _, trivial, rfl, rfl⟩,
    ⟨busy (.bytes []), _, trivial, rfl, rfl⟩, ⟨busy (.bytes [7]), _, trivial, rfl, rfl⟩⟩

theorem witness_HashComputesTheDigest :
    (∃ (s : State) (m : List Byte) (i j : Nat), s.fcode = 0 ∧ s.din = .bytes m ∧ IsMessage s.cfg s.din ∧
      i < m.length / 136 + 1 ∧ i = 1 ∧ j < 1088) ∧
    ∃ s : State, s.fcode = 0 ∧ ¬ IsMessage s.cfg s.din :=
  ⟨⟨busy (.bytes (List.replicate 136 7)), _, 1, 0, rfl, rfl, by simp [busy, holding, State.reset, IsMessage],
      by simp, rfl, by decide⟩,
    busy .none, rfl, by simp [busy, holding, IsMessage]⟩

theorem witness_DigestBytesAreTheLanesInOrder : ∃ j : Nat, j < 32 ∧ j / 8 = 3 ∧ j % 8 = 7 := ⟨31, by decide⟩

theorem witness_SpongeSequenceGivesTheDigest :
    ∃ (s : State) (m : List Byte) (rest : List HostAction), s.fcode = 0 ∧ m.length = 136 ∧
      s.pending = (expandLine (.sponge (.hex m) 256)).map .transact ++ rest :=
  ⟨{ State.reset with S := 1, pending := (expandLine (.sponge (.hex (List.replicate 136 7)) 256)).map .transact },
    List.replicate 136 7, [], rfl, List.length_replicate, (List.append_nil _).symm⟩

end Sys2Proof.Tests
end

section
/-! The family of 10_state.md: what writes FCODE, the reset values, and the views of the state array. -/

namespace Sys2Proof.Machine

/-- The four codes of 60_exceptions.md R261. -/
theorem fault_code_legal (f : Fault) : f.code = 1 ∨ f.code = 2 ∨ f.code = 3 ∨ f.code = 4 := by
  cases f <;> decide

/-- Every accepted transaction is answered, with FCODE as its STATUS (30_encoding.md R80). -/
theorem accept_status {s t : State} {a : Transaction} (h : s.accept a = .next t) :
    ∃ d, t.response = some ⟨t.fcode, d⟩ := by
  rcases accept_next_cases h with ⟨A, d, rfl⟩ | ⟨f, rfl⟩
  · exact ⟨d, rfl⟩
  · exact ⟨.none, rfl⟩

/-- An accepted transaction that changes FCODE is one that took a fault (60_exceptions.md R263). -/
theorem accept_fcode_changed {s t : State} {a : Transaction} (h : s.accept a = .next t)
    (hne : t.fcode ≠ s.fcode) : ∃ f, t = { s with din := a.din }.takeFault f := by
  rcases accept_next_cases h with ⟨A, d, rfl⟩ | hf
  · exact absurd rfl hne
  · exact hf

/-- Every answer of a step has STATUS equal to FCODE. -/
theorem step_status {s t : State} (h : step s = .next t) {r : Response} (hr : t.response = some r) :
    r.status = t.fcode := by
  rcases step_next_cases h with
    ⟨-, rfl⟩ | ⟨rest, -, rfl⟩ | ⟨a, rest, -, -, rfl⟩ | ⟨a, rest, -, -, ha⟩
  · cases hr
  · cases hr
  · cases hr
  · obtain ⟨d, hd⟩ := accept_status ha
    cases hd.symm.trans hr
    rfl

/-- A step that changes FCODE is a reset, or a transaction of a block that is not halted taking a fault. -/
theorem step_fcode_changed {s t : State} (h : step s = .next t) (hne : t.fcode ≠ s.fcode) :
    (∃ rest, s.pending = .reset :: rest ∧ t = { s with pending := rest }.hostReset) ∨
    ∃ a rest f, s.pending = .transact a :: rest ∧ s.fcode = 0 ∧
      t = { s with pending := rest, din := a.din }.takeFault f := by
  rcases step_next_cases h with
    ⟨-, rfl⟩ | hreset | ⟨a, rest, -, -, rfl⟩ | ⟨a, rest, hp, h0, ha⟩
  · exact absurd rfl hne
  · exact .inl hreset
  · exact absurd rfl hne
  · obtain ⟨f, hf⟩ := accept_fcode_changed ha hne
    exact .inr ⟨a, rest, f, hp, h0, hf⟩

/-- Settles O7: of the steps, only a reset and a fault change FCODE (`step_fcode_changed`). -/
theorem fcodeIsWrittenByFaultAndResetOnly : Obligations.FcodeIsWrittenByFaultAndResetOnly := by
  intro s t h
  refine ⟨fun hne => ?_, fun r hr => step_status h hr⟩
  rcases step_fcode_changed h hne with ⟨rest, hp, rfl⟩ | ⟨a, rest, f, hp, h0, rfl⟩
  · exact .inl ⟨rfl, rest, hp⟩
  · exact .inr ⟨h0, fault_code_legal f, rfl, rfl, a, rest, hp⟩

@[simp] theorem laneReg_zero (k : Nat) : laneReg 0 k = 0 := BitVec.extractLsb'_zero

/-- Settles O1: the state after reset is all zero, in its bits and in its lane registers. -/
theorem resetValuesOfTheState : Obligations.ResetValuesOfTheState :=
  ⟨fun _ _ => BitVec.getLsbD_zero, fun k _ => laneReg_zero k, rfl, (halted_eq_false_iff State.reset).2 rfl⟩

/-- Settles O24: bits by coordinates, by lane, and by linear index. -/
theorem coordinateMappingIsTheLinearIndex : Obligations.CoordinateMappingIsTheLinearIndex := by
  intro A
  refine ⟨fun x y z => rfl, fun x y z => getLsbD_lane A x y z, fun i hi => ?_⟩
  rw [bitAt, bitIndex_coordinates hi]

end Sys2Proof.Machine
end

section
/-! The family of 20_memory.md: the bit and byte codec, the byte image of the state, and the commands that
write no state. -/

namespace Sys2Proof.Machine

theorem bitsToNat_lt (v : List Bool) : bitsToNat v < 2 ^ v.length := by
  induction v with
  | nil => simp [bitsToNat]
  | cons b v ih =>
    have hb := b.toNat_le
    rw [bitsToNat, List.length_cons, Nat.pow_succ]
    omega

/-- The number of a bit sequence is the sum of its bits by significance (00_scope.md R10). -/
theorem bitsToNat_eq_sum (v : List Bool) :
    bitsToNat v = ((List.range v.length).map fun i => (v.getD i false).toNat * 2 ^ i).sum := by
  induction v with
  | nil => rfl
  | cons b v ih =>
    have hpow (i : Nat) : (v.getD i false).toNat * 2 ^ (i + 1) = 2 * ((v.getD i false).toNat * 2 ^ i) := by
      rw [Nat.pow_succ]; ring
    rw [bitsToNat, ih, ← List.sum_map_mul_left, List.length_cons, List.range_succ_eq_map, List.map_cons,
      List.sum_cons, List.map_map]
    simp only [Function.comp_def, List.getD_cons_zero, List.getD_cons_succ, pow_zero, mul_one,
      Nat.succ_eq_add_one, hpow]

theorem toNat_ofBits {n : Nat} {v : List Bool} (h : v.length = n) : (ofBits n v).toNat = bitsToNat v := by
  rw [ofBits, BitVec.toNat_ofNat, Nat.mod_eq_of_lt (h ▸ bitsToNat_lt v)]

@[simp] theorem length_bytesToBits (m : List Byte) : (bytesToBits m).length = 8 * m.length := by
  induction m with
  | nil => rfl
  | cons b m ih => simp [ih]; omega

theorem getD_bytesToBits (m : List Byte) (k : Nat) {i : Nat} (hi : i < 8) :
    (bytesToBits m).getD (8 * k + i) false = (m.getD k 0).getLsbD i := by
  induction m generalizing k with
  | nil => simp
  | cons b m ih =>
    rw [bytesToBits_cons]
    cases k with
    | zero =>
      rw [List.getD_append _ _ _ _ (by simpa using hi), getD_toBits]
      simp
    | succ k =>
      have hk : 8 * (k + 1) + i - 8 = 8 * k + i := by omega
      rw [List.getD_append_right _ _ _ _ (by simp; omega), length_toBits, hk, ih, List.getD_cons_succ]

theorem getLsbD_bitsToBytes (b : List Bool) {k i : Nat} (hk : k < b.length / 8) (hi : i < 8) :
    ((bitsToBytes b).getD k 0).getLsbD i = b.getD (8 * k + i) false := by
  rw [getD_bitsToBytes b hk, getLsbD_ofBits, getD_slice _ _ _ _ _ hi, decide_eq_true hi, Bool.true_and]

/-- Two byte sequences of one length with the same bits are one. -/
theorem bytes_ext {m n : List Byte} (hl : m.length = n.length)
    (h : ∀ k < m.length, ∀ i < 8, (m.getD k 0).getLsbD i = (n.getD k 0).getLsbD i) : m = n := by
  refine List.ext_getElem hl fun k hm hn => BitVec.eq_of_getLsbD_eq fun i hi => ?_
  simpa [List.getD_eq_getElem?_getD, hm, hn] using h k hm i hi

theorem bitsToBytes_bytesToBits (m : List Byte) : bitsToBytes (bytesToBits m) = m := by
  refine bytes_ext (by simp) fun k hk i hi => ?_
  rw [getLsbD_bitsToBytes _ (by simpa using hk) hi, getD_bytesToBits m k hi]

theorem bytesToBits_bitsToBytes {b : List Bool} (h : b.length % 8 = 0) :
    bytesToBits (bitsToBytes b) = b := by
  have hlen : (bytesToBits (bitsToBytes b)).length = b.length := by
    rw [length_bytesToBits, length_bitsToBytes]; omega
  refine bits_ext hlen fun i hi => ?_
  have hk : i / 8 < b.length / 8 := by omega
  have hj : i % 8 < 8 := by omega
  rw [← Nat.div_add_mod i 8, getD_bytesToBits _ _ hj, getLsbD_bitsToBytes b hk hj]

/-- Settles O40: by induction on the bytes (`getD_bytesToBits`). -/
theorem bytesToBitsIsLeastSignificantFirst : Obligations.BytesToBitsIsLeastSignificantFirst :=
  fun m => ⟨length_bytesToBits m, fun k _ _ hi => getD_bytesToBits m k hi⟩

/-- Settles O41: byte `k` is the number of the eight bits from `8k` on (`bitsToNat_eq_sum`). -/
theorem bitsToBytesSumsTheBits : Obligations.BitsToBytesSumsTheBits := by
  intro b n hb
  refine ⟨by rw [length_bitsToBytes]; omega, fun k hk => ?_⟩
  have hslice : (slice (8 * k) 8 b).length = 8 := by rw [length_slice]; omega
  rw [getD_bitsToBytes b (by omega), toNat_ofBits hslice, bitsToNat_eq_sum, hslice]
  refine congrArg List.sum (List.map_congr_left fun i hi => ?_)
  rw [getD_slice _ _ _ _ _ (List.mem_range.1 hi)]

/-- Settles O42: both directions, bit by bit (`bytes_ext`, `bits_ext`). -/
theorem codecRoundTrip : Obligations.CodecRoundTrip :=
  ⟨bitsToBytes_bytesToBits, fun _ hb => bytesToBits_bitsToBytes hb⟩

/-- Settles O43: bit `i` of byte `8k+j`, and of byte `j` of lane `k`, is bit `64k+8j+i` of the array. -/
theorem stateImageIsLittleEndianLanes : Obligations.StateImageIsLittleEndianLanes := by
  intro A
  refine ⟨by simp, fun k hk j hj => BitVec.eq_of_getLsbD_eq fun i hi => ?_⟩
  have hbyte : 8 * k + j < (toBits A).length / 8 := by rw [length_toBits]; omega
  calc ((bitsToBytes (toBits A)).getD (8 * k + j) 0).getLsbD i
      = A.getLsbD (8 * (8 * k + j) + i) := by rw [getLsbD_bitsToBytes _ hbyte hi, getD_toBits]
    _ = A.getLsbD (64 * k + (8 * j + i)) := congrArg A.getLsbD (by omega)
    _ = (laneReg A k).getLsbD (8 * j + i) := (getLsbD_laneReg A k (by omega)).symm
    _ = ((laneReg A k).extractLsb' (8 * j) 8).getLsbD i := by simp [hi]

/-- A command reads nothing of the answer to the transaction before it (30_encoding.md R80). -/
theorem exec_with_response (i : Instr) (s : State) (r : Option Response) :
    exec i { s with response := r } = exec i s := by
  cases i <;> rfl

/-- The frame of a command: it writes `S`, FCODE and the answer, and empties the data-in port. -/
theorem exec_next_frame {i : Instr} {s t : State} (h : exec i s = .next t) :
    t = { s with S := t.S, fcode := t.fcode, din := .none, response := t.response } := by
  rcases exec_next_cases h with ⟨A, d, rfl⟩ | ⟨f, rfl⟩
  · rfl
  · rfl

theorem ran_keeps_S {s t : State} {d : Port} (h : ran s s.S d = .next t) : t.S = s.S := by
  cases h; rfl

theorem raise_keeps_S {s t : State} {f : Fault} (h : raise s f = .next t) : t.S = s.S := by
  cases h; rfl

theorem withNoOperand_ran_keeps_S {s t : State} {d : Port}
    (h : withNoOperand s (ran s s.S d) = .next t) : t.S = s.S := by
  rcases withNoOperand_cases s (ran s s.S d) with ⟨-, e⟩ | ⟨-, e⟩
  · exact ran_keeps_S (e ▸ h)
  · exact raise_keeps_S (e ▸ h)

theorem withBytes_ran_keeps_S {s t : State} {d : List Byte → Port}
    (h : withBytes s (fun m => ran s s.S (d m)) = .next t) : t.S = s.S := by
  rcases withBytes_cases s (fun m => ran s s.S (d m)) with ⟨m, -, -, e⟩ | ⟨-, e⟩
  · exact ran_keeps_S (e ▸ h)
  · exact raise_keeps_S (e ▸ h)

/-- READ_STATE, SQUEEZE, PAD and HASH leave `S`, whether they complete or take a fault (20_memory.md R63). -/
theorem exec_keeps_S {i : Instr} {s t : State} (hi : WritesNoState i) (h : exec i s = .next t) :
    t.S = s.S := by
  cases i with
  | readState | squeeze _ => exact withNoOperand_ran_keeps_S h
  | pad | hash => exact withBytes_ran_keeps_S h
  | init | loadState | theta | rho | pi | chi | iota _ | round _ | permute | absorb => exact hi.elim

/-- A command that left `S` and FCODE as they were answers the same when it runs again on the same operand:
of what it reads, nothing has changed. -/
theorem exec_again {i : Instr} {s t : State} (h : exec i s = .next t) (hS : t.S = s.S)
    (hf : t.fcode = s.fcode) : exec i { t with din := s.din } = .next t := by
  have ht : { t with din := s.din } = { s with response := t.response } := by
    rw [exec_next_frame h, hS, hf]
  rw [ht, exec_with_response, h]

/-- Settles O53: the four commands leave `S` (`exec_keeps_S`), so they can be repeated (`exec_again`). -/
theorem readsHaveNoSideEffect : Obligations.ReadsHaveNoSideEffect :=
  fun _ _ _ hi h => ⟨exec_keeps_S hi h, fun hf => exec_again h (exec_keeps_S hi h) hf⟩

end Sys2Proof.Machine
end

section
/-! The family of 30_encoding.md, the command word: each row of the opcode map as the opcode it selects by,
the operand it takes from the word, and its match and mask. -/

namespace Sys2Proof

open Sys2Proof.Laws.WordOfRow (opcode)

/-- The operand of a command is the field of the word that 30_encoding.md R82 and R83 name. -/
def OperandFrom (w : CmdWord) : Instr → Prop
  | .init | .loadState | .readState | .theta | .rho | .pi | .chi => True
  | .iota r | .round r => r = rndField w
  | .permute | .absorb => True
  | .squeeze n => n = lenField w
  | .pad | .hash => True

/-- The opcode map selects a command by its opcode and hands it the operand fields of the word. -/
theorem selectByOpcode_some_iff (w : CmdWord) (i : Instr) :
    selectByOpcode w = some i ↔ opField w = opcode i ∧ OperandFrom w i := by
  constructor
  · intro h
    unfold selectByOpcode at h
    split at h <;> cases h <;> exact ⟨BitVec.eq_of_toNat_eq ‹_›, by simp [OperandFrom]⟩
  · rintro ⟨hop, hi⟩
    cases i with
    | iota r | round r | squeeze n => cases hi; simp [selectByOpcode, hop, opcode]
    | _ => simp [selectByOpcode, hop, opcode]

/-- The bits that hold `OP` (30_encoding.md R81). -/
def opMask : CmdWord := (BitVec.allOnes 8).setWidth 32

/-- No opcode requires a bit of `OP` itself to be zero. -/
theorem opField_mustBeZero (op : BitVec 8) : opField (mustBeZero op) = 0 := by
  unfold mustBeZero
  split_ifs <;> rfl

theorem getLsbD_opField (w : CmdWord) {i : Nat} (hi : i < 8) : (opField w).getLsbD i = w.getLsbD i := by
  simp [opField, hi]

theorem getLsbD_mustBeZero (op : BitVec 8) {i : Nat} (hi : i < 8) : (mustBeZero op).getLsbD i = false := by
  rw [← getLsbD_opField _ hi, opField_mustBeZero]
  exact BitVec.getLsbD_zero

theorem getLsbD_opMask {i : Nat} (hi : i < 32) : opMask.getLsbD i = decide (i < 8) := by
  rw [opMask, BitVec.getLsbD_setWidth, BitVec.getLsbD_allOnes, decide_eq_true hi, Bool.true_and]

theorem and_opMask (w : CmdWord) : w &&& opMask = (opField w).setWidth 32 := by
  refine BitVec.eq_of_getLsbD_eq fun i hi => ?_
  rw [BitVec.getLsbD_and, getLsbD_opMask hi, BitVec.getLsbD_setWidth, decide_eq_true hi, Bool.true_and]
  by_cases h8 : i < 8
  · rw [getLsbD_opField w h8, decide_eq_true h8, Bool.and_true]
  · rw [BitVec.getLsbD_of_ge _ i (Nat.not_lt.1 h8), decide_eq_false h8, Bool.and_false]

/-- A row's match under its mask says that the word has the row's opcode and no reserved bit set. -/
theorem and_mask_eq_match_iff (w : CmdWord) (op : BitVec 8) :
    w &&& (mustBeZero op ||| opMask) = op.setWidth 32 ↔ opField w = op ∧ w &&& mustBeZero op = 0 := by
  rw [BitVec.and_or_distrib_left, and_opMask]
  constructor
  · intro h
    have hbit (i : Nat) (hi : i < 32) :
        (w.getLsbD i && (mustBeZero op).getLsbD i || (opField w).getLsbD i) = op.getLsbD i := by
      simpa [hi] using congrArg (BitVec.getLsbD · i) h
    refine ⟨BitVec.eq_of_getLsbD_eq fun i hi => ?_, BitVec.eq_of_getLsbD_eq fun i hi => ?_⟩
    · simpa [getLsbD_mustBeZero op hi] using hbit i (by omega)
    · by_cases h8 : i < 8
      · simp [getLsbD_mustBeZero op h8]
      · have hop : op.getLsbD i = false := BitVec.getLsbD_of_ge op i (Nat.not_lt.1 h8)
        have hw : (opField w).getLsbD i = false := BitVec.getLsbD_of_ge _ i (Nat.not_lt.1 h8)
        simpa [hop, hw] using hbit i hi
  · rintro ⟨rfl, hz⟩
    rw [hz]
    exact BitVec.zero_or

section
variable {w : CmdWord} {op : BitVec 8} {mask mtch : CmdWord} (hmask : mustBeZero op ||| opMask = mask)
  (hmatch : op.setWidth 32 = mtch)
include hmask hmatch

/-- A word decodes to a command exactly when it meets the row's match and mask and its fields hold the
command's operand (30_encoding.md R87). -/
theorem decode_ok_iff_match {i : Instr} (hop : opcode i = op) :
    decode w = .ok i ↔ w &&& mask = mtch ∧ OperandFrom w i := by
  rw [← hmask, ← hmatch, and_mask_eq_match_iff, decode_ok_iff, selectByOpcode_some_iff, hop]
  constructor
  · rintro ⟨⟨rfl, ho⟩, hz⟩
    exact ⟨⟨rfl, hz⟩, ho⟩
  · rintro ⟨⟨rfl, hz⟩, ho⟩
    exact ⟨⟨rfl, ho⟩, hz⟩

/-- The row of a command without operand fields. -/
theorem decode_plain_iff {i : Instr} (hop : opcode i = op) (ho : OperandFrom w i) :
    decode w = .ok i ↔ w &&& mask = mtch :=
  (decode_ok_iff_match hmask hmatch hop).trans (and_iff_left ho)

/-- The row of a command whose operand is the field `a` of the word. -/
theorem exists_decode_iff {α : Type} (row : α → Instr) {a : α}
    (hop : ∀ r, opcode (row r) = op) (ho : ∀ r, OperandFrom w (row r) ↔ r = a) :
    (∃ r, decode w = .ok (row r)) ↔ w &&& mask = mtch := by
  simp only [decode_ok_iff_match hmask hmatch (hop _), ho, exists_and_left, exists_eq, and_true]

end

/-- Settles O16: row by row, from the match and mask of an opcode (`and_mask_eq_match_iff`). -/
theorem opcodeMapIsMatchAndMask : Obligations.OpcodeMapIsMatchAndMask := by
  intro w
  refine ⟨?init, ?loadState, ?readState, ?theta, ?rho, ?pi, ?chi, ?iota, ?round, ?permute, ?absorb,
    ?squeeze, ?pad, ?hash⟩
  case iota => exact exists_decode_iff rfl rfl .iota (fun _ => rfl) fun _ => Iff.rfl
  case round => exact exists_decode_iff rfl rfl .round (fun _ => rfl) fun _ => Iff.rfl
  case squeeze => exact exists_decode_iff rfl rfl .squeeze (fun _ => rfl) fun _ => Iff.rfl
  all_goals exact decode_plain_iff rfl rfl rfl trivial

end Sys2Proof
end

section
/-! The family of 30_encoding.md, the commands: how a command ends by its last two checks (R86), and the
DOUT it then answers (R85). -/

namespace Sys2Proof.Machine

open Sys2Proof.Laws.WordOfRow (opcode)

theorem length_squeezeFrom (k : Nat) (T : StateBits) {n : Nat} (hn : n ≤ 1088 * (k + 1)) :
    (squeezeFrom k T n).length = n := by
  induction k generalizing T n with
  | zero => simp [squeezeFrom]; omega
  | succ k ih =>
    rw [squeezeFrom]
    split
    · simp; omega
    · rw [List.length_append, length_toBits, ih _ (by omega)]
      omega

@[simp] theorem length_squeeze (A : StateBits) (n : Nat) : (squeeze A n).length = n :=
  length_squeezeFrom _ A (by omega)

theorem length_padSuffix {a : Nat} (h : 0 < a) : (padSuffix a).length = a := by
  unfold padSuffix
  split
  · next h1 => rw [h1]; rfl
  · simp; omega

/-- Padding brings a message to the next whole number of 136-byte blocks (43_padding.md R191). -/
theorem length_padBytes (m : List Byte) : (padBytes m).length = 136 * (m.length / 136 + 1) := by
  have hcount : 0 < padByteCount m.length := by unfold padByteCount; omega
  rw [padBytes, List.length_append, length_padSuffix hcount, padByteCount]
  omega

@[simp] theorem length_computeHash (m : List Byte) : (computeHash m).length = 32 := by
  rw [computeHash, length_bitsToBytes, length_squeeze]

/-- The DIN in the port has the shape that the command's opcode requires (30_encoding.md R84). -/
def DinOk (i : Instr) (s : State) : Prop := ShapeOk s.cfg (opcode i).toNat s.din

/-- How a command ends, by the third and the fourth check of 30_encoding.md R86: the first of them to fail
raises its fault, and a command that passes both completes with a DOUT of its shape (R85). -/
inductive CheckedEnding (i : Instr) (s : State) : Host.Outcome State Fault Refusal → Prop where
  | roundRange (hr : i.wellFormed = false) : CheckedEnding i s (raise s .roundRange)
  | dataShape (hr : i.wellFormed = true) (hd : ¬ DinOk i s) : CheckedEnding i s (raise s .dataShape)
  | completes (hr : i.wellFormed = true) (hd : DinOk i s) (A : StateBits) (d : Port) (hshape : DoutShape i d) :
    CheckedEnding i s (ran s A d)

section
variable {i : Instr} {s : State}

theorem checkedEnding_withNoOperand {A : StateBits} {d : Port} (hr : i.wellFormed = true)
    (hdin : DinOk i s ↔ s.din = .none) (hshape : DoutShape i d) :
    CheckedEnding i s (withNoOperand s (ran s A d)) := by
  rcases withNoOperand_cases s (ran s A d) with ⟨h, e⟩ | ⟨h, e⟩ <;> rw [e]
  · exact .completes hr (hdin.2 h) A d hshape
  · exact .dataShape hr (mt hdin.1 h)

theorem checkedEnding_withBits {n : Nat} {A : BitVec n → StateBits} {d : Port} (hr : i.wellFormed = true)
    (hdin : DinOk i s ↔ IsBits n s.din) (hshape : DoutShape i d) :
    CheckedEnding i s (withBits n s fun v => ran s (A v) d) := by
  by_cases h : IsBits n s.din
  · obtain ⟨v, hv⟩ : ∃ v, s.din = .bits v := by cases hd : s.din <;> simp_all [IsBits]
    rw [withBits_of_length hv (by simpa [hv, IsBits] using h)]
    exact .completes hr (hdin.2 h) _ d hshape
  · rw [withBits_of_not h]
    exact .dataShape hr (mt hdin.1 h)

theorem checkedEnding_withBytes {A : StateBits} {d : List Byte → Port} (hr : i.wellFormed = true)
    (hdin : DinOk i s ↔ IsMessage s.cfg s.din) (hshape : ∀ m, DoutShape i (d m)) :
    CheckedEnding i s (withBytes s fun m => ran s A (d m)) := by
  by_cases h : IsMessage s.cfg s.din
  · obtain ⟨m, hm⟩ : ∃ m, s.din = .bytes m := by cases hd : s.din <;> simp_all [IsMessage]
    rw [withBytes_of_admitted hm (by simpa [hm, IsMessage] using h)]
    exact .completes hr (hdin.2 h) A _ (hshape m)
  · rw [withBytes_of_not h]
    exact .dataShape hr (mt hdin.1 h)

/-- IOTA and ROUND: the round index is checked before the operand. -/
theorem checkedEnding_withRound {r : BitVec 5} {A : Fin 24 → StateBits} {d : Port}
    (hr : i.wellFormed = roundInRange r) (hdin : DinOk i s ↔ s.din = .none) (hshape : DoutShape i d) :
    CheckedEnding i s (withRound r s fun k => withNoOperand s (ran s (A k) d)) := by
  rcases withRound_cases r s fun k => withNoOperand s (ran s (A k) d) with ⟨h, e⟩ | ⟨h, e⟩ <;> rw [e]
  · exact checkedEnding_withNoOperand (hr.trans (decide_eq_true (Nat.le_of_lt_succ h))) hdin hshape
  · exact .roundRange (hr.trans (decide_eq_false (Nat.not_le.2 h)))

end

/-- Every command, from every state, ends as its checks say. -/
theorem exec_checkedEnding (i : Instr) (s : State) : CheckedEnding i s (exec i s) := by
  cases i with
  | init | theta | rho | pi | chi | permute => exact checkedEnding_withNoOperand rfl Iff.rfl rfl
  | readState => exact checkedEnding_withNoOperand rfl Iff.rfl (length_toBits s.S)
  | squeeze n => exact checkedEnding_withNoOperand rfl Iff.rfl (length_squeeze s.S n.toNat)
  | loadState => unfold exec execLoadState; exact checkedEnding_withBits rfl Iff.rfl rfl
  | absorb => unfold exec execAbsorb; exact checkedEnding_withBits rfl Iff.rfl rfl
  | iota r => unfold exec execIota; exact checkedEnding_withRound rfl Iff.rfl rfl
  | round r => unfold exec execRound; exact checkedEnding_withRound rfl Iff.rfl rfl
  | pad =>
    exact checkedEnding_withBytes rfl Iff.rfl fun m =>
      ⟨padBytes m, rfl, by rw [length_padBytes]; omega, by rw [length_padBytes, Nat.mul_mod_right]⟩
  | hash => exact checkedEnding_withBytes rfl Iff.rfl fun m => ⟨computeHash m, rfl, length_computeHash m⟩

/-- Settles O19: a command that leaves FCODE 0 took no fault, so it completed (`exec_checkedEnding`). -/
theorem doutHasTheShapeOfItsCommand : Obligations.DoutHasTheShapeOfItsCommand := by
  intro i s t hs h ht
  have e := exec_checkedEnding i s
  rw [h] at e
  cases e with
  | roundRange => cases ht
  | dataShape => cases ht
  | completes _ _ A d hshape => exact ⟨d, by rw [complete_response, hs], hshape⟩

end Sys2Proof.Machine
end

section
/-! The family of 30_encoding.md, the transaction: the checks of R86 on the command word and the operand, and
what the step does with their result. -/

namespace Sys2Proof.Machine

open Sys2Proof.Laws.WordOfRow (opcode)

section
variable {c : Config} {w : CmdWord} {d : Port} {k : BitVec 8}

/-- The first two checks are the decoder's: a word it rejects has the code of the rejection. -/
theorem checkResult_of_reject {e : DecodeReject} (h : decode w = .error e)
    (hk : CheckResult c w.toNat d k) : k = (rejectFault e).code := by
  unfold CheckResult at hk
  cases e with
  | illegalOpcode =>
    rwa [if_pos ((selectByOpcode_none_iff w).1 ((decode_illegal_iff w).1 h))] at hk
  | reservedField =>
    obtain ⟨hop, hz⟩ := (decode_reserved_iff w).1 h
    rwa [if_neg (mt (selectByOpcode_none_iff w).2 hop), if_pos (mt (mustBeZero_iff w).2 hz)] at hk

/-- The third check, on the word of a command, asks whether the command is well-formed. -/
theorem roundCheck_iff {i : Instr} (ho : OperandFrom w i) :
    ((opcode i).toNat = 0x14 ∨ (opcode i).toNat = 0x18) ∧ 23 < w.toNat / 2 ^ 8 % 2 ^ 5 ↔
      i.wellFormed = false := by
  cases i with
  | iota r | round r =>
    cases ho
    simp [opcode, Instr.wellFormed, roundInRange, toNat_rndField]
  | _ => simp [opcode, Instr.wellFormed]

/-- The last two checks on the word of a command, in terms of the command. -/
theorem checkResult_of_ok {i : Instr} (h : decode w = .ok i) (hk : CheckResult c w.toNat d k) :
    if i.wellFormed = false then k = 3
    else (ShapeOk c (opcode i).toNat d → k = 0) ∧ (¬ ShapeOk c (opcode i).toNat d → k = 4) := by
  obtain ⟨hsel, hz⟩ := (decode_ok_iff w i).1 h
  obtain ⟨hop, ho⟩ := (selectByOpcode_some_iff w i).1 hsel
  have hlegal : ¬ w.toNat % 2 ^ 8 ∉ legalOpcodes := mt (selectByOpcode_none_iff w).2 (by simp [hsel])
  unfold CheckResult at hk
  rw [if_neg hlegal, if_neg (not_not.2 ((mustBeZero_iff w).1 hz)), (opField_eq_iff w _).1 hop] at hk
  simpa only [roundCheck_iff ho] using hk

end

/-- The command a word decodes to ends as the checks of its transaction say. -/
theorem exec_of_checkResult {s : State} {w : CmdWord} {k : BitVec 8} {i : Instr} (h : decode w = .ok i)
    (hk : CheckResult s.cfg w.toNat s.din k) :
    (k = 0 ∧ ∃ A d, exec i s = ran s A d) ∨ ∃ f, k = f.code ∧ exec i s = raise s f := by
  have hk := checkResult_of_ok h hk
  have e := exec_checkedEnding i s
  generalize exec i s = o at e ⊢
  cases e with
  | roundRange hr =>
    rw [if_pos hr] at hk
    exact .inr ⟨.roundRange, hk, rfl⟩
  | dataShape hr hd =>
    rw [if_neg (ne_false_of_eq_true hr)] at hk
    exact .inr ⟨.dataShape, hk.2 hd, rfl⟩
  | completes hr hd A d =>
    rw [if_neg (ne_false_of_eq_true hr)] at hk
    exact .inl ⟨hk.1 hd, A, d, rfl⟩

/-- An accepted transaction runs the command of its word, or raises the fault whose code its checks give. -/
theorem accept_of_checkResult {s : State} {a : Transaction} {k : BitVec 8}
    (hk : CheckResult s.cfg a.cmd.toNat a.din k) :
    (k = 0 ∧ ∃ i A d, decode a.cmd = .ok i ∧ s.accept a = exec i { s with din := a.din } ∧
      s.accept a = ran { s with din := a.din } A d) ∨
    ∃ f, k = f.code ∧ s.accept a = raise { s with din := a.din } f := by
  rcases accept_cases s a with ⟨e, he, ha⟩ | ⟨i, hi, ha⟩
  · exact .inr ⟨rejectFault e, checkResult_of_reject he hk, ha⟩
  · rcases exec_of_checkResult (s := { s with din := a.din }) hi hk with ⟨h0, A, d, hran⟩ | ⟨f, hf, hraise⟩
    · exact .inl ⟨h0, i, A, d, hi, ha, ha.trans hran⟩
    · exact .inr ⟨f, hf, ha.trans hraise⟩

/-- A block that is not halted accepts the transaction it is sent (30_encoding.md R80). -/
theorem step_accept {s : State} {a : Transaction} {rest : List HostAction} (h0 : s.fcode = 0)
    (hp : s.pending = .transact a :: rest) : step s = { s with pending := rest }.accept a := by
  rw [step_transact hp, transact_running (s := { s with pending := rest }) a h0]

/-- Settles O18: the decoder makes the first two checks and the command the last two
(`accept_of_checkResult`). -/
theorem transactionIsCheckedInOrderAndThenExecutes :
    Obligations.TransactionIsCheckedInOrderAndThenExecutes := by
  intro s w d rest h0 hp
  rw [step_accept h0 hp]
  refine ⟨fun k hk hne => ?_, fun hk => ?_⟩
  · rcases accept_of_checkResult (s := { s with pending := rest }) (a := ⟨w, d⟩) hk with
      ⟨hk0, -⟩ | ⟨f, rfl, hf⟩
    · exact absurd hk0 hne
    · exact hf
  · rcases accept_of_checkResult (s := { s with pending := rest }) (a := ⟨w, d⟩) hk with
      ⟨-, i, A, dout, hi, hexec, hran⟩ | ⟨f, hf, -⟩
    · rw [ran_of_running (s := { s with din := d, pending := rest }) h0] at hran
      exact ⟨i, A, dout, hi, hexec, hran⟩
    · exact absurd hf.symm (fault_code_ne_zero f)

/-- Settles O13: the words by evaluating the decoder, IOTA 24 as a transaction that fails the third check. -/
theorem exampleWordsDecodeAsListed : Obligations.ExampleWordsDecodeAsListed := by
  refine ⟨by decide, by decide, by decide, by decide, by decide, by decide, by decide, by decide, by decide,
    by decide, by decide, by decide, by decide, fun s h0 hp => ?_⟩
  have hcheck : CheckResult s.cfg (0x00001814#32).toNat .none 3 := by
    simp [CheckResult, legalOpcodes, reservedPart]
  obtain ⟨hfault, -⟩ := transactionIsCheckedInOrderAndThenExecutes s _ _ [] h0 hp
  exact ⟨_, hfault 3 hcheck (by decide), rfl, rfl⟩

end Sys2Proof.Machine
end

section
/-! The family of 40_state_commands.md: a command that takes no DIN and a command that takes bits, each with
its effect on the required shape and its fault on every other, and INIT, LOAD_STATE and READ_STATE by them. -/

namespace Sys2Proof.Machine

/-- The second check of 30_encoding.md R86, for every opcode of the map. -/
theorem rejectsReserved_of_legal {op : Nat} (hop : op ∈ legalOpcodes) : RejectsReserved op := by
  rintro w rfl hres
  exact (decode_reserved_iff w).2
    ⟨fun hnone => (selectByOpcode_none_iff w).1 hnone hop, mt (mustBeZero_iff w).1 hres⟩

section
variable {i : Instr} {s : State}

theorem completes_of_din_none {A : StateBits} {d : Port} (hexec : exec i s = withNoOperand s (ran s A d))
    (h0 : s.fcode = 0) (hdin : s.din = .none) : Completes i s A d :=
  calc exec i s
    _ = ran s A d := by rw [hexec, withNoOperand_of_none hdin]
    _ = _ := ran_of_running h0 A d

/-- F_DATA_SHAPE of a command that takes no DIN (30_encoding.md R84). -/
theorem faults_of_din_ne_none {k : Host.Outcome State Fault Refusal} (hexec : exec i s = withNoOperand s k)
    (hdin : s.din ≠ .none) : Faults i s 4 :=
  hexec.trans (withNoOperand_of_ne hdin)

theorem completes_of_din_bits {n : Nat} {A : BitVec n → StateBits} {d : Port} {v : List Bool}
    (hexec : exec i s = withBits n s fun b => ran s (A b) d) (h0 : s.fcode = 0) (hdin : s.din = .bits v)
    (hlen : v.length = n) : Completes i s (A (ofBits n v)) d :=
  calc exec i s
    _ = ran s (A (ofBits n v)) d := by rw [hexec, withBits_of_length hdin hlen]
    _ = _ := ran_of_running h0 _ d

/-- F_DATA_SHAPE of a command that takes a DIN of `n` bits (30_encoding.md R84). -/
theorem faults_of_din_not_bits {n : Nat} {k : BitVec n → Host.Outcome State Fault Refusal}
    (hexec : exec i s = withBits n s k) (hdin : ¬ IsBits n s.din) : Faults i s 4 :=
  hexec.trans (withBits_of_not hdin)

end

theorem exec_loadState (s : State) : exec .loadState s = withBits 1600 s fun v => ran s v .none := rfl

/-- Settles O20: INIT takes no DIN and runs with the zero state array. -/
theorem initZeroesTheStateArray : Obligations.InitZeroesTheStateArray :=
  ⟨by decide, rejectsReserved_of_legal (by decide), fun _ => completes_of_din_none rfl,
    fun _ _ => faults_of_din_ne_none rfl⟩

/-- Settles O21: LOAD_STATE takes 1600 bits and runs with their vector (`getLsbD_ofBits`). -/
theorem loadStateReplacesTheStateArray : Obligations.LoadStateReplacesTheStateArray := by
  refine ⟨by decide, rejectsReserved_of_legal (by decide), fun s v h0 hdin hlen => ?_,
    fun s _ => faults_of_din_not_bits (exec_loadState s)⟩
  refine ⟨ofBits 1600 v, completes_of_din_bits (exec_loadState s) h0 hdin hlen, fun i hi => ?_⟩
  rw [getLsbD_ofBits, decide_eq_true hi, Bool.true_and]

/-- Settles O22: READ_STATE takes no DIN and answers the bits of `S`, in the order of `toBits`. -/
theorem readStateReturnsTheStateArray : Obligations.ReadStateReturnsTheStateArray := by
  refine ⟨by decide, rejectsReserved_of_legal (by decide), fun s h0 hdin => ?_,
    fun _ _ => faults_of_din_ne_none rfl⟩
  exact ⟨toBits s.S, completes_of_din_none rfl h0 hdin, length_toBits s.S, fun i _ => getD_toBits s.S i⟩

end Sys2Proof.Machine
end

section
/-! The family of 41_round_steps.md: the lanes and the bits of a state array after each round step, the two
tables, and the commands THETA, RHO, PI, CHI and IOTA. -/

namespace Sys2Proof.Machine

open Sys2Proof.Laws.WordOfRow (opcode)

section
variable (A : StateBits) (x y : Fin 5)

/-! Each step in its lane-word form (41_round_steps.md R132, R135, R138, R140, R142). -/

@[simp] theorem lane_theta : lane (theta A) x y = lane A x y ^^^ thetaMix A x := lane_ofLanes _ x y

@[simp] theorem lane_rho : lane (rho A) x y = rotl64 (lane A x y) (offset x y) := lane_ofLanes _ x y

@[simp] theorem lane_pi : lane (pi A) x y = lane A (x + 3 * y) x := lane_ofLanes _ x y

@[simp] theorem lane_chi :
    lane (chi A) x y = lane A x y ^^^ (~~~(lane A (x + 1) y) &&& lane A (x + 2) y) := lane_ofLanes _ x y

theorem lane_iota_origin (r : Fin 24) : lane (iota r A) 0 0 = lane A 0 0 ^^^ roundConstant r :=
  lane_ofLanes _ 0 0

theorem lane_iota_other (r : Fin 24) {x y : Fin 5} (h : ¬ (x = 0 ∧ y = 0)) :
    lane (iota r A) x y = lane A x y := by
  rw [iota, lane_ofLanes, if_neg h]

/-- `(X + 3Y, X)` undoes `(y, 2x + 3y)`, mod 5 (41_round_steps.md R136). -/
theorem pi_source_of_destination : ∀ x y : Fin 5, y + 3 * (2 * x + 3 * y) = x := by decide

theorem lane_pi_destination : lane (pi A) y (2 * x + 3 * y) = lane A x y := by
  rw [lane_pi, pi_source_of_destination]

end

/-- Settles O32: every lane of an array made of lanes is the one it is made of (`lane_ofLanes`). -/
theorem laneWordFormsOfTheSteps : Obligations.LaneWordFormsOfTheSteps := by
  intro A x y
  refine ⟨fun C hC => ?_, lane_rho A x y, lane_pi_destination A x y, ?_, lane_chi A x y⟩
  · obtain rfl : C = columnParity A := funext hC
    exact lane_theta A x y
  · rw [lane_pi_destination, lane_rho]

section
variable (A : StateBits) (x y : Fin 5) (z : Fin 64)

/-- Bit `z` of the parity lane `C[x]` is the parity of the column `(x, z)` (41_round_steps.md R131). -/
theorem getLsbD_columnParity : (columnParity A x).getLsbD z.val = (bitAt A x 0 z ^^ (bitAt A x 1 z ^^
    (bitAt A x 2 z ^^ (bitAt A x 3 z ^^ bitAt A x 4 z)))) := by
  simp only [columnParity, BitVec.getLsbD_xor, getLsbD_lane, Bool.xor_assoc]

theorem bitAt_theta : bitAt (theta A) x y z =
    (bitAt A x y z ^^ ((columnParity A (x - 1)).getLsbD z.val ^^
      (columnParity A (x + 1)).getLsbD (z - 1).val)) := by
  have hrot : (rotl64 (columnParity A (x + 1)) 1).getLsbD z.val =
      (columnParity A (x + 1)).getLsbD (z - 1).val := getLsbD_rotl64 _ (by decide) z
  rw [← getLsbD_lane, lane_theta, BitVec.getLsbD_xor, getLsbD_lane, thetaMix, BitVec.getLsbD_xor, hrot]

theorem offset_lt : ∀ x y : Fin 5, offset x y < 64 := by decide

theorem bitAt_rho : bitAt (rho A) x y z = bitAt A x y (z - Fin.ofNat 64 (offset x y)) := by
  rw [← getLsbD_lane, lane_rho, getLsbD_rotl64 _ (offset_lt x y), getLsbD_lane]

theorem bitAt_pi_destination : bitAt (pi A) y (2 * x + 3 * y) z = bitAt A x y z := by
  rw [← getLsbD_lane, lane_pi_destination, getLsbD_lane]

theorem bitAt_chi : bitAt (chi A) x y z =
    (bitAt A x y z ^^ (!bitAt A (x + 1) y z && bitAt A (x + 2) y z)) := by
  rw [← getLsbD_lane, lane_chi]
  simp only [BitVec.getLsbD_xor, BitVec.getLsbD_and, BitVec.getLsbD_not, z.isLt, decide_true, Bool.true_and,
    getLsbD_lane]

theorem bitAt_iota_origin (r : Fin 24) :
    bitAt (iota r A) 0 0 z = (bitAt A 0 0 z ^^ (roundConstant r).getLsbD z.val) := by
  rw [← getLsbD_lane, lane_iota_origin, BitVec.getLsbD_xor, getLsbD_lane]

theorem bitAt_iota_other (r : Fin 24) {x y : Fin 5} (h : ¬ (x = 0 ∧ y = 0)) :
    bitAt (iota r A) x y z = bitAt A x y z := by
  rw [← getLsbD_lane, lane_iota_other A r h, getLsbD_lane]

end

/-- Settles O26: the 25 table entries, read by row and column. -/
theorem rotationOffsetsAreTheTable : Obligations.RotationOffsetsAreTheTable := by
  unfold Obligations.RotationOffsetsAreTheTable
  decide

/-- The lane with a 1 at the seven places where a round constant can have one (41_round_steps.md R141). -/
def roundConstantPlaces : Lane := 0x800000008000808B

theorem roundConstant_and_places : ∀ r, roundConstant r &&& roundConstantPlaces = roundConstant r := by decide

theorem mem_of_getLsbD_places :
    ∀ z : Fin 64, roundConstantPlaces.getLsbD z.val = true → z.val ∈ [0, 1, 3, 7, 15, 31, 63] := by decide

/-- Settles O30: the table entry by entry, and no constant has a 1 outside `roundConstantPlaces`. -/
theorem roundConstantsAreTheTable : Obligations.RoundConstantsAreTheTable := by
  refine ⟨by decide, fun r z hz => mem_of_getLsbD_places z ?_⟩
  rw [← roundConstant_and_places, BitVec.getLsbD_and, Bool.and_eq_true] at hz
  exact hz.2

/-- Settles O25: THETA takes no DIN and runs with `theta`, whose bits are `bitAt_theta`. -/
theorem thetaXorsTheTwoColumnParities : Obligations.ThetaXorsTheTwoColumnParities := by
  refine ⟨by decide, rejectsReserved_of_legal (by decide), fun s C h0 hdin hC => ?_,
    fun _ _ => faults_of_din_ne_none rfl⟩
  refine ⟨theta s.S, completes_of_din_none rfl h0 hdin, fun x y z => ?_⟩
  rw [bitAt_theta, getLsbD_columnParity, getLsbD_columnParity, hC, hC]

/-- Settles O27: RHO takes no DIN and runs with `rho`, whose bits are `bitAt_rho`. -/
theorem rhoRotatesEveryLaneByItsOffset : Obligations.RhoRotatesEveryLaneByItsOffset :=
  ⟨by decide, rejectsReserved_of_legal (by decide),
    fun s h0 hdin => ⟨rho s.S, completes_of_din_none rfl h0 hdin, bitAt_rho s.S⟩,
    fun _ _ => faults_of_din_ne_none rfl⟩

/-- Settles O28: PI takes no DIN and runs with `pi`, whose bits are `bitAt_pi_destination`. -/
theorem piMovesEveryLane : Obligations.PiMovesEveryLane :=
  ⟨by decide, rejectsReserved_of_legal (by decide),
    fun s h0 hdin => ⟨pi s.S, completes_of_din_none rfl h0 hdin, bitAt_pi_destination s.S⟩,
    fun _ _ => faults_of_din_ne_none rfl⟩

/-- Settles O29: CHI takes no DIN and runs with `chi`, whose bits are `bitAt_chi`. -/
theorem chiMixesEveryRow : Obligations.ChiMixesEveryRow :=
  ⟨by decide, rejectsReserved_of_legal (by decide),
    fun s h0 hdin => ⟨chi s.S, completes_of_din_none rfl h0 hdin, bitAt_chi s.S⟩,
    fun _ _ => faults_of_din_ne_none rfl⟩

/-- The word of IOTA or ROUND, for every round index, has no reserved bit set and holds the index in RND
(30_encoding.md R82, R86). -/
theorem decode_roundWord {i : Instr} {r : BitVec 5} {op : BitVec 8} (hop : opcode i = op)
    (hround : op = 0x14 ∨ op = 0x18) (hoperand : ∀ w, OperandFrom w i ↔ r = rndField w) :
    decode (BitVec.ofNat 32 (op.toNat + 2 ^ 8 * r.toNat)) = .ok i := by
  have hword : BitVec.ofNat 32 (op.toNat + 2 ^ 8 * r.toNat) = commandWord 0 r op := rfl
  rw [hword, decode_ok_iff, selectByOpcode_some_iff, hoperand, hop, opField_commandWord, rndField_commandWord]
  refine ⟨⟨rfl, rfl⟩, ?_⟩
  have := op.isLt
  have := r.isLt
  rw [mustBeZero, if_pos hround, and_from_13, toNat_commandWord]
  simp only [BitVec.ofNat_eq_ofNat, BitVec.toNat_ofNat]
  omega

section
variable {i : Instr} {s : State} {r : BitVec 5} {A : Fin 24 → StateBits} {d : Port}
  (hexec : exec i s = withRound r s fun k => withNoOperand s (ran s (A k) d))
include hexec

/-! IOTA and ROUND: the command with a round index in 0..23, and the two faults in the order of
30_encoding.md R86. -/

theorem completes_of_round (hr : r.toNat < 24) (h0 : s.fcode = 0) (hdin : s.din = .none) :
    Completes i s (A ⟨r.toNat, hr⟩) d :=
  completes_of_din_none (hexec.trans (withRound_of_lt hr)) h0 hdin

theorem faults_of_round_out_of_range (hr : 23 < r.toNat) : Faults i s 3 := hexec.trans (withRound_of_le hr)

theorem faults_of_round_din_ne_none (hr : r.toNat ≤ 23) (hdin : s.din ≠ .none) : Faults i s 4 :=
  faults_of_din_ne_none (hexec.trans (withRound_of_lt (Nat.lt_succ_of_le hr))) hdin

end

theorem exec_iota (r : BitVec 5) (s : State) :
    exec (.iota r) s = withRound r s fun k => withNoOperand s (ran s (iota k s.S) .none) := rfl

/-- Settles O31: IOTA takes a round index and no DIN and runs with `iota`, which writes lane `(0, 0)` only
(`bitAt_iota_origin`, `bitAt_iota_other`). -/
theorem iotaXorsTheRoundConstant : Obligations.IotaXorsTheRoundConstant := by
  refine ⟨fun r => decode_roundWord (op := 0x14) rfl (.inl rfl) fun _ => Iff.rfl,
    rejectsReserved_of_legal (by decide), fun s r hr h0 hdin => ?_,
    fun s r _ => faults_of_round_out_of_range (exec_iota r s),
    fun s r _ => faults_of_round_din_ne_none (exec_iota r s)⟩
  exact ⟨iota ⟨r.toNat, hr⟩ s.S, completes_of_round (exec_iota r s) hr h0 hdin,
    fun z => bitAt_iota_origin s.S z _, fun _ _ z => bitAt_iota_other s.S z _⟩

end Sys2Proof.Machine
end

section
/-! The family of 42_permutation.md: the states between the rounds of the permutation, and the commands ROUND
and PERMUTE. -/

namespace Sys2Proof.Machine

section
variable (A : StateBits) (s : State)

/-- The state array after the first `n` of the rounds 0, 1, ..., 23 (42_permutation.md R171). -/
def afterRounds (n : Nat) : StateBits := ((List.finRange 24).take n).foldl (fun T r => keccakRound r T) A

@[simp] theorem afterRounds_zero : afterRounds A 0 = A := rfl

/-- Round `n` is fed by the state of the rounds before it (42_permutation.md R172). -/
theorem afterRounds_succ {n : Nat} (hn : n < 24) :
    afterRounds A (n + 1) = keccakRound ⟨n, hn⟩ (afterRounds A n) := by
  have htake : (List.finRange 24).take (n + 1) = (List.finRange 24).take n ++ [⟨n, hn⟩] := by
    rw [List.take_succ_eq_append_getElem (by simpa using hn), List.getElem_finRange, Fin.cast_mk]
  rw [afterRounds, htake, List.foldl_append, List.foldl_cons, List.foldl_nil, afterRounds]

/-- After its 24 rounds the permutation is done (42_permutation.md R171). -/
theorem afterRounds_all : afterRounds A 24 = keccakF A := by
  rw [afterRounds, List.take_of_length_le (by simp), keccakF]

theorem exec_round (r : BitVec 5) : exec (.round r) s =
    withRound r s fun k => withNoOperand s (ran s (iota k (chi (pi (rho (theta s.S))))) .none) := rfl

theorem exec_permute : exec .permute s = withNoOperand s (ran s (afterRounds s.S 24) .none) := by
  rw [afterRounds_all]; rfl

end

/-- Settles O34: ROUND takes a round index and no DIN and runs with the five steps in their order
(`exec_round`). -/
theorem roundAppliesTheFiveStepsInOrder : Obligations.RoundAppliesTheFiveStepsInOrder :=
  ⟨fun r => decode_roundWord (op := 0x18) rfl (.inr rfl) fun _ => Iff.rfl,
    rejectsReserved_of_legal (by decide),
    fun s r hr => completes_of_round (exec_round s r) hr,
    fun s r _ => faults_of_round_out_of_range (exec_round s r),
    fun s r _ => faults_of_round_din_ne_none (exec_round s r)⟩

/-- Settles O36: PERMUTE takes no DIN, and its rounds pass through the states `afterRounds`. -/
theorem permuteAppliesTwentyFourRoundsInOrder : Obligations.PermuteAppliesTwentyFourRoundsInOrder := by
  refine ⟨by decide, rejectsReserved_of_legal (by decide), fun s h0 hdin => ?_,
    fun s _ => faults_of_din_ne_none (exec_permute s)⟩
  exact ⟨afterRounds s.S, afterRounds_zero s.S, fun _ => afterRounds_succ s.S,
    completes_of_din_none (exec_permute s) h0 hdin⟩

end Sys2Proof.Machine
end

section
/-! The family of 43_padding.md: the length of the padding on bits, the byte-aligned form as its byte image, the
blocks of a padded sequence, and the command PAD. -/

namespace Sys2Proof.Machine

theorem padZeros_lt (L : Nat) : padZeros L < 1088 := by unfold padZeros; omega

/-- The two 1 bits and the zeros between them fill the last block (43_padding.md R190). -/
theorem add_padZeros_mod (L : Nat) : (L + padZeros L + 2) % 1088 = 0 := by unfold padZeros; omega

@[simp] theorem length_pad (m : List Bool) : (pad m).length = m.length + padZeros m.length + 2 := by
  simp [pad]; omega

/-- A padded message of bytes is one block longer than the whole blocks in it (43_padding.md R192). -/
theorem length_pad_bytesToBits (B : List Byte) :
    (pad (bytesToBits B)).length = 1088 * (B.length / 136 + 1) := by
  have hlt := padZeros_lt (8 * B.length)
  have hmod := add_padZeros_mod (8 * B.length)
  rw [length_pad, length_bytesToBits]
  omega

/-- Settles O44: fewer zeros leave the length between two multiples of 1088 (`padZeros_lt`). -/
theorem padIsTheLeastTenStarOne : Obligations.PadIsTheLeastTenStarOne := by
  intro m
  have hlt := padZeros_lt m.length
  have hmod := add_padZeros_mod m.length
  exact ⟨padZeros m.length, rfl, rfl, by omega, fun k hk => by omega⟩

/-- Settles O45: the length is a multiple of 1088 (`add_padZeros_mod`) less than a block above `L + 2`
(`padZeros_lt`); for bytes it is `length_pad_bytesToBits`. -/
theorem padLengthIsTheSmallestMultiple : Obligations.PadLengthIsTheSmallestMultiple := by
  refine ⟨fun m => ?_, fun B => ?_⟩
  · have hlt := padZeros_lt m.length
    have hmod := add_padZeros_mod m.length
    rw [length_pad]
    refine ⟨hmod, ?_, fun k hk hle => ?_, ?_, ?_, ?_, ?_⟩ <;> omega
  · rw [length_pad_bytesToBits, length_bytesToBits]
    omega

theorem bytesToBits_replicate_zero (k : Nat) :
    bytesToBits (List.replicate k 0) = List.replicate (8 * k) false := by
  have hzero : toBits (0 : Byte) = List.replicate 8 false := by decide
  induction k with
  | zero => rfl
  | succ k ih =>
    rw [List.replicate_succ, bytesToBits_cons, hzero, ih, List.replicate_append_replicate]
    congr 1
    omega

/-- The first padding bit is bit 0 of the byte `0x01` and the last one bit 7 of the byte `0x80`, of a single
byte `0x81` when only one is added (43_padding.md R191). -/
theorem bytesToBits_padSuffix {a : Nat} (ha : 0 < a) :
    bytesToBits (padSuffix a) = [true] ++ List.replicate (8 * a - 2) false ++ [true] := by
  unfold padSuffix
  split
  · next h1 => subst h1; decide
  · next h1 =>
    have hfirst : bytesToBits [0x01] = [true] ++ List.replicate 7 false := by decide
    have hlast : bytesToBits [0x80] = List.replicate 7 false ++ [true] := by decide
    have hcount : 7 + (8 * (a - 2) + 7) = 8 * a - 2 := by omega
    rw [bytesToBits_append, bytesToBits_append, hfirst, hlast, bytesToBits_replicate_zero, ← hcount,
      List.replicate_add, List.replicate_add]
    simp only [List.append_assoc]

/-- The bytes added hold the zeros and the two 1 bits that padding adds to the bits. -/
theorem padZeros_bytes (n : Nat) : padZeros (8 * n) = 8 * padByteCount n - 2 := by
  unfold padZeros padByteCount; omega

theorem bytesToBits_padBytes (B : List Byte) : bytesToBits (padBytes B) = pad (bytesToBits B) := by
  have hcount : 0 < padByteCount B.length := by unfold padByteCount; omega
  rw [padBytes, bytesToBits_append, bytesToBits_padSuffix hcount, pad, length_bytesToBits, padZeros_bytes]
  simp only [List.append_assoc]

/-- Settles O46: the bits of the bytes added are those that `pad` adds (`bytesToBits_padSuffix`), and
`bitsToBytes` takes them back. -/
theorem padBytesIsTheByteImageOfPad : Obligations.PadBytesIsTheByteImageOfPad :=
  fun B => ⟨by rw [← bytesToBits_padBytes, bitsToBytes_bytesToBits], bytesToBits_padBytes B⟩

@[simp] theorem length_blocks (p : List Bool) : (blocks p).length = p.length / 1088 := by simp [blocks]

theorem getD_blocks (p : List Bool) {i : Nat} (hi : i < p.length / 1088) :
    (blocks p).getD i 0 = ofBits 1088 (slice (1088 * i) 1088 p) := by
  simp [blocks, List.getD_eq_getElem?_getD, hi]

theorem getLsbD_blocks (p : List Bool) {i j : Nat} (hi : i < p.length / 1088) (hj : j < 1088) :
    ((blocks p).getD i 0).getLsbD j = p.getD (1088 * i + j) false := by
  rw [getD_blocks p hi, getLsbD_ofBits, getD_slice _ _ _ _ _ hj, decide_eq_true hj, Bool.true_and]

/-- A padded message of bytes has one block more than whole blocks in it (45_hash.md R230). -/
theorem length_blocks_pad (B : List Byte) : (blocks (pad (bytesToBits B))).length = B.length / 136 + 1 := by
  rw [length_blocks, length_pad_bytesToBits, Nat.mul_div_cancel_left _ (by decide)]

/-- Settles O48: bit by bit (`getLsbD_blocks`), and the number of blocks by `length_blocks_pad`. -/
theorem blocksAreTheConsecutiveSlices : Obligations.BlocksAreTheConsecutiveSlices := by
  refine ⟨fun p k hp => ?_, length_blocks_pad⟩
  have hk : p.length / 1088 = k := by omega
  exact ⟨(length_blocks p).trans hk, fun i hi j hj => getLsbD_blocks p (hk ▸ hi) hj⟩

section
variable {i : Instr} {s : State}

theorem completes_of_din_bytes {A : StateBits} {d : List Byte → Port} {m : List Byte}
    (hexec : exec i s = withBytes s fun b => ran s A (d b)) (h0 : s.fcode = 0) (hdin : s.din = .bytes m)
    (hm : IsMessage s.cfg s.din) : Completes i s A (d m) := by
  rw [hdin] at hm
  calc exec i s
    _ = ran s A (d m) := by rw [hexec, withBytes_of_admitted hdin hm]
    _ = _ := ran_of_running h0 A (d m)

/-- F_DATA_SHAPE of a command that takes a message (30_encoding.md R84). -/
theorem faults_of_din_not_message {k : List Byte → Host.Outcome State Fault Refusal}
    (hexec : exec i s = withBytes s k) (hdin : ¬ IsMessage s.cfg s.din) : Faults i s 4 :=
  hexec.trans (withBytes_of_not hdin)

end

theorem exec_pad (s : State) : exec .pad s = withBytes s fun m => ran s s.S (.bytes (padBytes m)) := rfl

theorem take_padBytes (m : List Byte) : (padBytes m).take m.length = m := List.take_left

theorem drop_padBytes (m : List Byte) : (padBytes m).drop m.length = padSuffix (padByteCount m.length) :=
  List.drop_left

theorem padSuffix_of_one_missing {n : Nat} (h : n % 136 = 135) : padSuffix (padByteCount n) = [0x81] := by
  rw [padByteCount, h]; rfl

theorem padSuffix_of_more_missing {n : Nat} (h : n % 136 ≠ 135) :
    padSuffix (padByteCount n) = 0x01 :: (List.replicate (134 - n % 136) 0x00 ++ [0x80]) := by
  have hcount : padByteCount n - 2 = 134 - n % 136 := by unfold padByteCount; omega
  have hne : padByteCount n ≠ 1 := by unfold padByteCount; omega
  rw [padSuffix, if_neg hne, hcount]
  rfl

/-- Settles O47: PAD takes a message and answers `padBytes` of it, the message and then `padSuffix`. -/
theorem padReturnsTheMessageAndItsPadding : Obligations.PadReturnsTheMessageAndItsPadding := by
  refine ⟨by decide, rejectsReserved_of_legal (by decide), fun s m h0 hdin hm => ?_,
    fun s _ => faults_of_din_not_message (exec_pad s)⟩
  refine ⟨padBytes m, completes_of_din_bytes (d := fun b => .bytes (padBytes b)) (exec_pad s) h0 hdin hm,
    length_padBytes m, take_padBytes m, fun h => ?_, fun h => ?_⟩
  · rw [drop_padBytes, padSuffix_of_one_missing h]
  · rw [drop_padBytes, padSuffix_of_more_missing h]

end Sys2Proof.Machine
end

section
/-! The family of 44_sponge.md: the bits of the two sponge engines, the lanes at the front of the rate, and the
commands ABSORB and SQUEEZE. -/

namespace Sys2Proof.Machine

section
variable (A : StateBits)

/-! The block meets the rate, and the capacity stays (44_sponge.md R210). -/

theorem getLsbD_xorRate_rate (v : List Bool) {i : Nat} (hi : i < 1088) :
    (xorRate A (ofBits 1088 v)).getLsbD i = (A.getLsbD i ^^ v.getD i false) := by
  have hstate : i < 1600 := by omega
  rw [xorRate, BitVec.getLsbD_xor, BitVec.getLsbD_setWidth, getLsbD_ofBits, decide_eq_true hstate,
    decide_eq_true hi, Bool.true_and, Bool.true_and]

theorem getLsbD_xorRate_capacity (blk : Block) {i : Nat} (hi : 1088 ≤ i) :
    (xorRate A blk).getLsbD i = A.getLsbD i := by
  rw [xorRate, BitVec.getLsbD_xor, BitVec.getLsbD_setWidth, BitVec.getLsbD_of_ge blk i hi, Bool.and_false,
    Bool.xor_false]

/-! The rate as a sequence, whole and cut short, is what SQUEEZE answers from one state (44_sponge.md R212). -/

theorem getD_toBits_rate {i : Nat} (hi : i < 1088) : (toBits (rate A)).getD i false = A.getLsbD i := by
  rw [getD_toBits, getLsbD_rate A hi]

theorem getD_take_toBits_rate {n i : Nat} (hi : i < n) (hrate : i < 1088) :
    ((toBits (rate A)).take n).getD i false = A.getLsbD i := by
  rw [← getD_toBits_rate A hrate, List.getD_eq_getElem?_getD, List.getD_eq_getElem?_getD,
    List.getElem?_take_of_lt hi]

end

/-- The first 1088 bits of the output are the rate itself (44_sponge.md R212). -/
theorem iterate_keccakF_rate (T : StateBits) {i : Nat} (hi : i < 1088) :
    (keccakF^[i / 1088] T).getLsbD (i % 1088) = T.getLsbD i := by
  rw [Nat.div_eq_of_lt hi, Nat.mod_eq_of_lt hi, Function.iterate_zero, id_eq]

/-- A later output bit is one of the permuted state, 1088 places before (44_sponge.md R212). -/
theorem iterate_keccakF_next (T : StateBits) {i : Nat} (hi : 1088 ≤ i) :
    (keccakF^[i / 1088] T).getLsbD (i % 1088) =
      (keccakF^[(i - 1088) / 1088] (keccakF T)).getLsbD ((i - 1088) % 1088) := by
  have hdiv : i / 1088 = (i - 1088) / 1088 + 1 := by omega
  have hmod : i % 1088 = (i - 1088) % 1088 := by omega
  rw [hdiv, hmod, Function.iterate_succ_apply]

/-- Bit `i` of the output is bit `i mod 1088` of the state permuted `i div 1088` times, when the permutations
that may run suffice for the output (44_sponge.md R212). -/
theorem getD_squeezeFrom (k : Nat) (T : StateBits) {n i : Nat} (hn : n ≤ 1088 * (k + 1)) (hi : i < n) :
    (squeezeFrom k T n).getD i false = (keccakF^[i / 1088] T).getLsbD (i % 1088) := by
  induction k generalizing T n i with
  | zero =>
    have hrate : i < 1088 := by omega
    rw [squeezeFrom, getD_take_toBits_rate T hi hrate, iterate_keccakF_rate T hrate]
  | succ k ih =>
    rw [squeezeFrom]
    split
    · have hrate : i < 1088 := by omega
      rw [getD_take_toBits_rate T hi hrate, iterate_keccakF_rate T hrate]
    · rcases Nat.lt_or_ge i 1088 with hrate | hnext
      · rw [List.getD_append _ _ _ _ (by rwa [length_toBits]), getD_toBits_rate T hrate,
          iterate_keccakF_rate T hrate]
      · rw [List.getD_append_right _ _ _ _ (by rwa [length_toBits]), length_toBits,
          ih _ (by omega) (by omega), iterate_keccakF_next T hnext]

theorem getD_squeeze (A : StateBits) {n i : Nat} (hi : i < n) :
    (squeeze A n).getD i false = (keccakF^[i / 1088] A).getLsbD (i % 1088) :=
  getD_squeezeFrom (n / 1088) A (by omega) hi

/-- The word of SQUEEZE, for every length, has no reserved bit set and holds the length in LEN
(30_encoding.md R83, R86). -/
theorem decode_squeezeWord (n : BitVec 16) :
    decode (BitVec.ofNat 32 (0x40 + 2 ^ 16 * n.toNat)) = .ok (.squeeze n) := by
  have hword : BitVec.ofNat 32 (0x40 + 2 ^ 16 * n.toNat) = commandWord n 0 0x40 := rfl
  have hmask : mustBeZero 0x40 = 0x0000FF00 := by decide
  rw [hword, decode_ok_iff, selectByOpcode_some_iff, opField_commandWord, hmask, and_8_to_15,
    toNat_commandWord]
  refine ⟨⟨rfl, (lenField_commandWord n 0 0x40).symm⟩, ?_⟩
  simp only [BitVec.ofNat_eq_ofNat, BitVec.toNat_ofNat]
  omega

theorem exec_absorb (s : State) :
    exec .absorb s = withBits 1088 s fun blk => ran s (absorb s.S blk) .none := rfl

theorem exec_squeeze (n : BitVec 16) (s : State) :
    exec (.squeeze n) s = withNoOperand s (ran s s.S (.bits (squeeze s.S n.toNat))) := rfl

/-- Settles O49: ABSORB takes 1088 bits and permutes `xorRate`, whose bits are `getLsbD_xorRate_rate` and
`getLsbD_xorRate_capacity`. -/
theorem absorbXorsTheRateAndPermutes : Obligations.AbsorbXorsTheRateAndPermutes := by
  refine ⟨by decide, rejectsReserved_of_legal (by decide), fun s v h0 hdin hlen => ?_,
    fun s _ => faults_of_din_not_bits (exec_absorb s)⟩
  exact ⟨xorRate s.S (ofBits 1088 v), fun _ => getLsbD_xorRate_rate s.S v,
    fun _ => getLsbD_xorRate_capacity s.S _,
    completes_of_din_bits (A := absorb s.S) (exec_absorb s) h0 hdin hlen⟩

/-- Settles O51: SQUEEZE takes no DIN and answers the sequence `squeeze`, whose bits are `getD_squeeze`. -/
theorem squeezeReadsTheRatesInOrder : Obligations.SqueezeReadsTheRatesInOrder := by
  refine ⟨decode_squeezeWord, rejectsReserved_of_legal (by decide), fun s n h0 hdin => ?_,
    fun s n _ => faults_of_din_ne_none (exec_squeeze n s)⟩
  exact ⟨squeeze s.S n.toNat, completes_of_din_none (exec_squeeze n s) h0 hdin, length_squeeze s.S n.toNat,
    fun _ => getD_squeeze s.S⟩

/-- The 64 bits of the rate from `64k` on are lane register `k` (10_state.md R23). -/
theorem slice_toBits_rate (A : StateBits) {k : Nat} (hk : k < 17) :
    slice (64 * k) 64 (toBits (rate A)) = toBits (laneReg A k) := by
  have hlen : (slice (64 * k) 64 (toBits (rate A))).length = 64 := by
    rw [length_slice, length_toBits]; omega
  refine bits_ext (hlen.trans (length_toBits _).symm) fun z hz => ?_
  rw [hlen] at hz
  rw [getD_slice _ _ _ _ _ hz, getD_toBits_rate A (by omega), getD_toBits, getLsbD_laneReg A k hz]

/-- The rate begins with the lane registers in their order, each least significant bit first
(44_sponge.md R213). -/
theorem take_toBits_rate (A : StateBits) {k : Nat} (hk : k ≤ 17) :
    (toBits (rate A)).take (64 * k) = (List.range k).flatMap fun j => toBits (laneReg A j) := by
  induction k with
  | zero => rfl
  | succ k ih =>
    have hlast := slice_toBits_rate A (Nat.lt_of_succ_le hk)
    rw [slice] at hlast
    rw [Nat.mul_succ, List.take_add, ih (by omega), hlast, List.range_succ, List.flatMap_append,
      List.flatMap_singleton]

/-- Settles O52: 256 bits are taken from the rate, so they are its first four lane registers
(`take_toBits_rate`). -/
theorem squeezeOfTheDigestLengthIsFourLanes : Obligations.SqueezeOfTheDigestLengthIsFourLanes := by
  intro A
  calc squeeze A 256
    _ = (toBits (rate A)).take (64 * 4) := rfl
    _ = (List.range 4).flatMap fun j => toBits (laneReg A j) := take_toBits_rate A (by decide)
    _ = toBits (laneReg A 0) ++ toBits (laneReg A 1) ++ toBits (laneReg A 2) ++ toBits (laneReg A 3) := by
      simp [List.range_succ]

end Sys2Proof.Machine
end

section
/-! The family of 45_hash.md: the working state of HASH block by block, the bytes of its digest, the command
HASH, and the transactions of SPONGE that give the same digest. -/

namespace Sys2Proof.Machine

section
variable (m : List Byte)

/-- The working state of HASH after the first `n` blocks of the padded message (45_hash.md R230). -/
def hashState (n : Nat) : StateBits := ((blocks (pad (bytesToBits m))).take n).foldl absorb 0

@[simp] theorem hashState_zero : hashState m 0 = 0 := rfl

/-- Block `n` is absorbed into the state of the blocks before it (45_hash.md R230). -/
theorem hashState_succ {n : Nat} (hn : n < m.length / 136 + 1) :
    hashState m (n + 1) = absorb (hashState m n) ((blocks (pad (bytesToBits m))).getD n 0) := by
  have hlt : n < (blocks (pad (bytesToBits m))).length := by rwa [length_blocks_pad]
  rw [hashState, List.take_succ_eq_append_getElem hlt, List.foldl_append, List.foldl_cons, List.foldl_nil,
    List.getD_eq_getElem _ _ hlt, hashState]

/-- After the last block the whole message is absorbed. -/
theorem hashState_all : hashState m (m.length / 136 + 1) = absorbMessage m := by
  rw [hashState, ← length_blocks_pad, List.take_length, absorbMessage]

theorem getLsbD_block_pad {n j : Nat} (hn : n < m.length / 136 + 1) (hj : j < 1088) :
    ((blocks (pad (bytesToBits m))).getD n 0).getLsbD j = (pad (bytesToBits m)).getD (1088 * n + j) false :=
  getLsbD_blocks _ (by rwa [← length_blocks, length_blocks_pad]) hj

end

theorem exec_hash (s : State) : exec .hash s = withBytes s fun m => ran s s.S (.bytes (computeHash m)) := rfl

/-- Settles O54: HASH takes a message, and its blocks pass through the states `hashState`. -/
theorem hashComputesTheDigest : Obligations.HashComputesTheDigest := by
  refine ⟨by decide, rejectsReserved_of_legal (by decide), fun s m h0 hdin hm => ?_,
    fun s _ => faults_of_din_not_message (exec_hash s)⟩
  refine ⟨hashState m, computeHash m, hashState_zero m, fun i hi => ?_, ?_, length_computeHash m,
    completes_of_din_bytes (d := fun b => .bytes (computeHash b)) (exec_hash s) h0 hdin hm⟩
  · exact ⟨_, hashState_succ m hi, fun j => getLsbD_block_pad m hi⟩
  · rw [hashState_all, computeHash]

/-- The DIN that PAD and HASH require, by the message in it (30_encoding.md R84). -/
theorem isMessage_iff {c : Config} {d : Port} :
    IsMessage c d ↔ ∃ m, d = .bytes m ∧ ∀ b, c.maxMessageBytes = some b → m.length ≤ b := by
  cases d <;> simp [IsMessage]

/-- Settles O55: the operand check of HASH reads the port and the configuration only, so both its outcomes are
those of the other state array. -/
theorem hashNeitherReadsNorWritesTheState : Obligations.HashNeitherReadsNorWritesTheState := by
  intro s A
  by_cases h : IsMessage s.cfg s.din
  · obtain ⟨m, hdin, hm⟩ := isMessage_iff.1 h
    exact ⟨s.complete s.S (.bytes (computeHash m)), (exec_hash s).trans (withBytes_of_admitted hdin hm), rfl,
      (exec_hash _).trans (withBytes_of_admitted (s := { s with S := A }) hdin hm)⟩
  · exact ⟨s.takeFault .dataShape, (exec_hash s).trans (withBytes_of_not h), rfl,
      (exec_hash _).trans (withBytes_of_not (s := { s with S := A }) h)⟩

/-- An output of at most one rate is the front of the state array (44_sponge.md R212). -/
theorem getD_squeeze_rate (A : StateBits) {n i : Nat} (hi : i < n) (hrate : i < 1088) :
    (squeeze A n).getD i false = A.getLsbD i := by
  rw [getD_squeeze A hi, iterate_keccakF_rate A hrate]

/-- Settles O56: bit `i` of digest byte `j`, and of byte `j mod 8` of lane `j div 8`, is bit `8j+i` of the final
state. -/
theorem digestBytesAreTheLanesInOrder : Obligations.DigestBytesAreTheLanesInOrder := by
  intro A
  refine ⟨by simp, fun j hj => BitVec.eq_of_getLsbD_eq fun i hi => ?_⟩
  have hbyte : j < (squeeze A 256).length / 8 := by rwa [length_squeeze]
  calc ((bitsToBytes (squeeze A 256)).getD j 0).getLsbD i
      = (squeeze A 256).getD (8 * j + i) false := getLsbD_bitsToBytes _ hbyte hi
    _ = A.getLsbD (8 * j + i) := getD_squeeze_rate A (by omega) (by omega)
    _ = A.getLsbD (64 * (j / 8) + (8 * (j % 8) + i)) := congrArg A.getLsbD (by omega)
    _ = (laneReg A (j / 8)).getLsbD (8 * (j % 8) + i) := (getLsbD_laneReg A _ (by omega)).symm
    _ = ((laneReg A (j / 8)).extractLsb' (8 * (j % 8)) 8).getLsbD i := by simp [hi]

theorem accept_of_decode {s : State} {a : Transaction} {i : Instr} (h : decode a.cmd = .ok i) :
    s.accept a = exec i { s with din := a.din } := by
  rw [State.accept, h]

section
variable {s : State} {rest : List HostAction} (h0 : s.fcode = 0)
include h0

/-- A block that is not halted, sent a command that completes on its operand, is not halted afterwards either,
holds and answers what the command says, and has the host's later actions left (30_encoding.md R80). -/
theorem step_completes {i : Instr} {d dout : Port} {A : StateBits}
    (hp : s.pending = .transact (transaction i d) :: rest) (hdecode : decode (encode i) = .ok i)
    (hrun : Completes i { s with din := d, pending := rest } A dout) :
    ∃ t, step s = .next t ∧ t.fcode = 0 ∧ t.pending = rest ∧ t.S = A ∧ t.response = some ⟨0, dout⟩ := by
  have hstep : step s = .next { s with S := A, din := .none, response := some ⟨0, dout⟩, pending := rest } :=
    calc step s
      _ = { s with pending := rest }.accept (transaction i d) := step_accept h0 hp
      _ = exec i { s with din := d, pending := rest } := accept_of_decode hdecode
      _ = _ := hrun
  exact ⟨_, hstep, h0, rfl, rfl, rfl⟩

theorem step_init (hp : s.pending = .transact (transaction .init .none) :: rest) :
    ∃ t, step s = .next t ∧ t.fcode = 0 ∧ t.pending = rest ∧ t.S = 0 ∧ t.response = some ⟨0, .none⟩ :=
  step_completes h0 hp (by decide) (completes_of_din_none rfl h0 rfl)

theorem step_absorb {blk : Block} (hp : s.pending = .transact (transaction .absorb (.bits (toBits blk))) :: rest) :
    ∃ t, step s = .next t ∧ t.fcode = 0 ∧ t.pending = rest ∧ t.S = absorb s.S blk ∧
      t.response = some ⟨0, .none⟩ := by
  have hrun := completes_of_din_bits (s := { s with din := .bits (toBits blk), pending := rest })
    (exec_absorb _) h0 rfl (length_toBits blk)
  rw [ofBits_toBits] at hrun
  exact step_completes h0 hp (by decide) hrun

theorem step_squeeze_digest (hp : s.pending = .transact (transaction (.squeeze 256) .none) :: rest) :
    ∃ t, step s = .next t ∧ t.fcode = 0 ∧ t.pending = rest ∧ t.S = s.S ∧
      t.response = some ⟨0, .bits (squeeze s.S 256)⟩ :=
  step_completes h0 hp (by decide) (completes_of_din_none (exec_squeeze 256 _) h0 rfl)

/-- The ABSORBs of a list of blocks, sent one after the other, absorb the blocks in their order. -/
theorem after_absorbs {bs : List Block}
    (hp : s.pending = bs.map (fun blk => .transact (transaction .absorb (.bits (toBits blk)))) ++ rest) :
    ∃ t, After bs.length s t ∧ t.fcode = 0 ∧ t.pending = rest ∧ t.S = bs.foldl absorb s.S := by
  induction bs generalizing s with
  | nil => exact ⟨s, rfl, h0, hp, rfl⟩
  | cons blk bs ih =>
    obtain ⟨u, hstep, hu0, hup, huS, -⟩ := step_absorb h0 hp
    obtain ⟨t, hafter, ht0, htp, htS⟩ := ih hu0 hup
    exact ⟨t, ⟨u, hstep, hafter⟩, ht0, htp, by rw [htS, huS, List.foldl_cons]⟩

end

/-- SPONGE as the host's actions: INIT, an ABSORB for each block of the padded message, SQUEEZE
(30_encoding.md R91). -/
theorem map_transact_sponge (m : List Byte) (n : BitVec 16) (rest : List HostAction) :
    (expandLine (.sponge (.hex m) n)).map .transact ++ rest =
      .transact (transaction .init .none) ::
        ((blocks (pad (bytesToBits m))).map (fun blk => .transact (transaction .absorb (.bits (toBits blk)))) ++
          .transact (transaction (.squeeze n) .none) :: rest) := by
  simp [expandLine, byteOperandBytes]

/-- Settles O57: INIT (`step_init`), the blocks (`after_absorbs`), SQUEEZE (`step_squeeze_digest`), as many
ABSORBs as `length_blocks_pad` says. -/
theorem spongeSequenceGivesTheDigest : Obligations.SpongeSequenceGivesTheDigest := by
  intro s m rest h0 hp
  rw [map_transact_sponge] at hp
  obtain ⟨u, hinit, hu0, hup, huS, -⟩ := step_init h0 hp
  obtain ⟨v, habsorb, hv0, hvp, hvS⟩ := after_absorbs hu0 hup
  obtain ⟨t, hsqueeze, ht0, htp, htS, hresponse⟩ := step_squeeze_digest hv0 hvp
  have hmessage : v.S = absorbMessage m := by rw [hvS, huS, absorbMessage]
  rw [length_blocks_pad] at habsorb
  have hafter : After (m.length / 136 + 1 + 1) u t := after_trans habsorb ⟨t, hsqueeze, rfl⟩
  exact ⟨t, squeeze v.S 256, ⟨u, hinit, hafter⟩, ht0, htp, hresponse, by rw [hmessage, computeHash],
    htS.trans hmessage⟩

end Sys2Proof.Machine
end

section
/-! The family of 60_exceptions.md: a halted block, however many transactions are sent to it. -/

namespace Sys2Proof.Machine

/-- A halted block lets the host's next action, unless it is a reset, go by and keeps the rest of its state
(60_exceptions.md R264, R273). -/
theorem step_halted {n : Nat} {s : State} (hf : s.fcode ≠ 0) (hr : HostAction.reset ∉ s.pending.take (n + 1)) :
    step s = .next { s with pending := s.pending.drop 1 }.noTransaction := by
  rcases hp : s.pending with - | ⟨a | _, rest⟩
  · rw [step_idle hp, List.drop_nil, ← hp]
  · exact (step_transact hp).trans (transact_halted (s := { s with pending := rest }) a hf)
  · exact absurd (by rw [hp, List.take_succ_cons]; exact List.mem_cons_self) hr

/-- However many steps a halted block takes without a reset, only the host's actions go by
(60_exceptions.md R264). -/
theorem after_halted {n : Nat} {s t : State} (hf : s.fcode ≠ 0)
    (hr : HostAction.reset ∉ s.pending.take (n + 1)) (h : After (n + 1) s t) :
    t = { s with pending := s.pending.drop (n + 1) }.noTransaction := by
  induction n generalizing s with
  | zero =>
    obtain ⟨u, hstep, rfl⟩ := h
    exact Host.Outcome.next.inj (hstep.symm.trans (step_halted hf hr))
  | succ n ih =>
    obtain ⟨u, hstep, hafter⟩ := h
    obtain rfl := Host.Outcome.next.inj (hstep.symm.trans (step_halted hf hr))
    have hrest : HostAction.reset ∉ (s.pending.drop 1).take (n + 1) := by
      rw [List.take_drop, Nat.add_comm]
      exact fun hm => hr (List.mem_of_mem_drop hm)
    have hdrop : s.pending.drop (n + 1 + 1) = (s.pending.drop 1).drop (n + 1) := by
      rw [List.drop_drop, Nat.add_comm]
    rw [hdrop]
    exact ih (s := { s with pending := s.pending.drop 1 }.noTransaction) hf hrest hafter

/-- Settles O6: without a reset only the host's actions go by (`after_halted`), and the step of a reset
(`step_reset`) clears FCODE. -/
theorem haltLastsUntilReset : Obligations.HaltLastsUntilReset := by
  refine ⟨fun n s t hf hr h => ?_, fun s rest _ hp => ?_⟩
  · rw [after_halted hf hr h]
    exact ⟨rfl, rfl, rfl⟩
  · exact ⟨_, step_reset hp, rfl, (halted_eq_false_iff _).2 rfl⟩

end Sys2Proof.Machine
end

section
/-! The family of 70_reset_and_hazards.md: what a reset writes and what it keeps. -/

namespace Sys2Proof.Machine

/-- Settles O2: the step of a reset answers `hostReset` of the state with the action taken off its queue
(`step_reset`). That state's fields are the State laws', and its FCODE 0 is what ends the halt. -/
theorem hostResetClearsStateAndHalt : Obligations.HostResetClearsStateAndHalt := by
  intro s rest hp
  have hstep : step s = .next { s with pending := rest }.hostReset := step_reset hp
  have hrunning : ({ s with pending := rest }.hostReset).halted = false :=
    (halted_eq_false_iff _).2 (hostReset_fcode _)
  exact ⟨_, hstep, hostReset_S _, hostReset_fcode _, hrunning, hostReset_cfg _, hostReset_pending _⟩

end Sys2Proof.Machine
end

section
/-! What a step keeps and answers, whatever it does: the invariant, the configuration, a next state, and how
each kind of step treats the host's action (60_exceptions.md, 10_state.md sections 2 and 3). -/

namespace Sys2Proof.Machine

section
variable {s : State}

/-! The invariant does not speak of the host's actions still to come, and it holds after each operation that ends
a step. -/

theorem inv_with_pending (h : Inv s) (rest : List HostAction) : Inv { s with pending := rest } where
  fcode_legal := h.fcode_legal
  port_empty := h.port_empty
  status_is_fcode := h.status_is_fcode
  fault_no_data := h.fault_no_data

theorem inv_noTransaction (h : Inv s) : Inv s.noTransaction where
  fcode_legal := h.fcode_legal
  port_empty := rfl
  status_is_fcode := nofun
  fault_no_data := nofun

theorem inv_hostReset (s : State) : Inv s.hostReset where
  fcode_legal := .inl rfl
  port_empty := rfl
  status_is_fcode := nofun
  fault_no_data := nofun

/-- A command that completes in a block that is not halted answers STATUS 0, so its data is no fault's. -/
theorem inv_complete (h0 : s.fcode = 0) (A : StateBits) (d : Port) : Inv (s.complete A d) where
  fcode_legal := .inl h0
  port_empty := rfl
  status_is_fcode := by rintro _ ⟨⟩; rfl
  fault_no_data := by rintro _ ⟨⟩ hne; exact absurd h0 hne

/-- A fault leaves one of the four codes and answers no data (60_exceptions.md R263). -/
theorem inv_takeFault (s : State) (f : Fault) : Inv (s.takeFault f) where
  fcode_legal := .inr (fault_code_legal f)
  port_empty := rfl
  status_is_fcode := by rintro _ ⟨⟩; rfl
  fault_no_data := by rintro _ ⟨⟩ _; rfl

end

/-- Settles O11: each of the four kinds of step ends in an operation after which the invariant holds; the
invariant of the state before is needed only where no transaction is accepted. -/
theorem stepKeepsTheInvariant : Obligations.StepKeepsTheInvariant := by
  intro s t hs h
  rcases step_next_cases h with
    ⟨-, rfl⟩ | ⟨rest, -, rfl⟩ | ⟨a, rest, -, -, rfl⟩ | ⟨a, rest, -, h0, ha⟩
  · exact inv_noTransaction hs
  · exact inv_hostReset _
  · exact inv_noTransaction (inv_with_pending hs rest)
  · rcases accept_next_cases ha with ⟨A, d, rfl⟩ | ⟨f, rfl⟩
    · exact inv_complete (s := { s with din := a.din, pending := rest }) h0 A d
    · exact inv_takeFault _ f

/-- Settles O10: the state after reset is the reset of itself. -/
theorem resetMeetsTheInvariant : Obligations.ResetMeetsTheInvariant := inv_hostReset State.reset

theorem accept_cfg {s t : State} {a : Transaction} (h : s.accept a = .next t) : t.cfg = s.cfg := by
  rcases accept_next_cases h with ⟨A, d, rfl⟩ | ⟨f, rfl⟩
  · rfl
  · rfl

/-- Settles O8: none of the four kinds of step writes the configuration. -/
theorem stepKeepsTheConfiguration : Obligations.StepKeepsTheConfiguration := by
  intro s t h
  rcases step_next_cases h with
    ⟨-, rfl⟩ | ⟨rest, -, rfl⟩ | ⟨a, rest, -, -, rfl⟩ | ⟨a, rest, -, -, ha⟩
  · rfl
  · rfl
  · rfl
  · exact accept_cfg (s := { s with pending := rest }) ha

/-- Every command answers a next state (60_exceptions.md R260, R263). -/
theorem exec_total (i : Instr) (s : State) : ∃ t, exec i s = .next t := by
  have e := exec_ending i s
  generalize exec i s = o at e
  cases e with
  | completes A d => exact ⟨s.complete A d, rfl⟩
  | faults f => exact ⟨s.takeFault f, rfl⟩

theorem accept_total (s : State) (a : Transaction) : ∃ t, s.accept a = .next t := by
  rcases accept_cases s a with ⟨e, -, ha⟩ | ⟨i, -, ha⟩
  · exact ⟨_, ha⟩
  · rw [ha]
    exact exec_total i _

theorem step_total (s : State) : ∃ t, step s = .next t := by
  rcases hp : s.pending with - | ⟨a | _, rest⟩
  · exact ⟨_, step_idle hp⟩
  · by_cases h0 : s.fcode = 0
    · rw [step_accept h0 hp]
      exact accept_total _ a
    · exact ⟨_, (step_transact hp).trans (transact_halted (s := { s with pending := rest }) a h0)⟩
  · exact ⟨_, step_reset hp⟩

/-- Settles O9: a step by the host's action (`step_total`), a command by how it can end (`exec_total`). -/
theorem everyStepAnswersANextState : Obligations.EveryStepAnswersANextState := ⟨step_total, exec_total⟩

/-- Settles O3: the block accepts the transaction (`step_accept`) and runs the command it decodes to. -/
theorem stepRunsTheDecodedCommand : Obligations.StepRunsTheDecodedCommand := by
  intro s w d rest i h0 hp hi
  rw [step_accept h0 hp, accept_of_decode hi]

/-- Settles O4: the step is a transaction (`step_transact`) that a halted block does not accept. -/
theorem haltedBlockAnswersNoTransaction : Obligations.HaltedBlockAnswersNoTransaction := fun s a rest hf hp =>
  (step_transact hp).trans (transact_halted (s := { s with pending := rest }) a hf)

/-- Settles O5: the step is idle (`step_idle`). -/
theorem idleBlockKeepsItsState : Obligations.IdleBlockKeepsItsState := fun _ hp => step_idle hp

open Classical in
/-- The code in FCODE after a command, by the last two checks of 30_encoding.md R86. Neither reads `S`. -/
theorem exec_fcode {i : Instr} {s t : State} (h : exec i s = .next t) :
    t.fcode = if i.wellFormed = false then 3 else if DinOk i s then s.fcode else 4 := by
  have e := exec_checkedEnding i s
  rw [h] at e
  cases e with
  | roundRange hr => rw [if_pos hr]; rfl
  | dataShape hr hd => rw [if_neg (ne_false_of_eq_true hr), if_neg hd]; rfl
  | completes hr hd A d => rw [if_neg (ne_false_of_eq_true hr), if_pos hd]; rfl

/-- From another state array a command ends with the same FCODE and the same host actions left. -/
theorem exec_with_S {i : Instr} {s t : State} (A : StateBits) (h : exec i s = .next t) :
    ∃ u, exec i { s with S := A } = .next u ∧ u.fcode = t.fcode ∧ u.pending = t.pending := by
  obtain ⟨u, hu⟩ := exec_total i { s with S := A }
  refine ⟨u, hu, (exec_fcode hu).trans (exec_fcode h).symm, ?_⟩
  rw [exec_next_frame hu, exec_next_frame h]

/-- From another state array an accepted transaction ends with the same FCODE and host actions left: the
decoder reads the command word only. -/
theorem accept_with_S {s t : State} {a : Transaction} (A : StateBits) (h : s.accept a = .next t) :
    ∃ u, { s with S := A }.accept a = .next u ∧ u.fcode = t.fcode ∧ u.pending = t.pending := by
  cases hd : decode a.cmd with
  | error e =>
    have hfault (s : State) : s.accept a = raise { s with din := a.din } (rejectFault e) := by
      rw [State.accept, hd]
    cases (hfault s).symm.trans h
    exact ⟨_, hfault _, rfl, rfl⟩
  | ok i =>
    rw [accept_of_decode hd] at h ⊢
    exact exec_with_S A h

/-- Settles O12: a step that accepts no transaction reads no `S`, and one that does is `accept_with_S`. -/
theorem faultsDoNotDependOnTheStateArray : Obligations.FaultsDoNotDependOnTheStateArray := by
  intro s t A h
  rcases step_next_cases h with
    ⟨hp, rfl⟩ | ⟨rest, hp, rfl⟩ | ⟨a, rest, hp, hf, rfl⟩ | ⟨a, rest, hp, h0, ha⟩
  · exact ⟨_, step_idle (s := { s with S := A }) hp, rfl, rfl⟩
  · exact ⟨_, step_reset (s := { s with S := A }) hp, rfl, rfl⟩
  · exact ⟨_, haltedBlockAnswersNoTransaction { s with S := A } a rest hf hp, rfl, rfl⟩
  · rw [step_accept (s := { s with S := A }) h0 hp]
    exact accept_with_S (s := { s with pending := rest }) A ha

end Sys2Proof.Machine
end

section
/-! The family of 30_encoding.md, encoder and decoder: each undoes the other, and the operands they carry. -/

namespace Sys2Proof.Machine

open Sys2Proof.Laws.WordOfRow (opcode roundOf lengthOf)

/-- Every command decodes from its word: the words with an operand by `decode_roundWord` and
`decode_squeezeWord`, the others are single words. -/
theorem decode_encode (i : Instr) : decode (encode i) = .ok i := by
  cases i with
  | iota r => exact decode_roundWord (op := 0x14) rfl (.inl rfl) fun _ => Iff.rfl
  | round r => exact decode_roundWord (op := 0x18) rfl (.inr rfl) fun _ => Iff.rfl
  | squeeze n => exact decode_squeezeWord n
  | init | loadState | readState | theta | rho | pi | chi | permute | absorb | pad | hash => decide

/-- Settles O14: by the commands, at every value of their operands (`decode_encode`). -/
theorem decodeOfEncodeGivesTheCommandBack : Obligations.DecodeOfEncodeGivesTheCommandBack := decode_encode

theorem encode_eq_commandWord (i : Instr) : encode i = commandWord (lengthOf i) (roundOf i) (opcode i) := by
  cases i <;> rfl

theorem operandFrom_of_decode {w : CmdWord} {i : Instr} (h : decode w = .ok i) : OperandFrom w i :=
  ((selectByOpcode_some_iff w i).1 ((decode_ok_iff w i).1 h).1).2

/-- A word that decodes to a command is, as a number, made of the command's fields: what the command does not
use is required to be zero (30_encoding.md R81, R86). -/
theorem toNat_of_decode {w : CmdWord} {i : Instr} (h : decode w = .ok i) :
    w.toNat = (opcode i).toNat + 2 ^ 8 * (roundOf i).toNat + 2 ^ 16 * (lengthOf i).toNat := by
  obtain ⟨hsel, hz⟩ := (decode_ok_iff w i).1 h
  obtain ⟨hop, ho⟩ := (selectByOpcode_some_iff w i).1 hsel
  have hopNat := (opField_eq_iff w _).1 hop
  rw [mustBeZero_iff, hopNat] at hz
  cases i with
  | iota r | round r | squeeze n =>
    cases ho
    simp [opcode, roundOf, lengthOf, reservedPart, toNat_rndField, toNat_lenField] at hopNat hz ⊢
    omega
  | _ =>
    simp [opcode, roundOf, lengthOf, reservedPart] at hopNat hz ⊢
    omega

/-- Settles O15: the word and the encoding are made of the same fields (`toNat_of_decode`). -/
theorem encodeOfDecodeGivesTheWordBack : Obligations.EncodeOfDecodeGivesTheWordBack := by
  intro w i h
  refine BitVec.eq_of_toNat_eq ?_
  rw [encode_eq_commandWord, toNat_commandWord, toNat_of_decode h]

/-- Settles O17: the operand of a decoded command is a field of the word (`operandFrom_of_decode`). -/
theorem operandFieldsAreReadUnsigned : Obligations.OperandFieldsAreReadUnsigned := by
  refine fun w => ⟨fun r h => ?_, fun r h => ?_, fun n h => ?_⟩
  · obtain rfl : r = rndField w := operandFrom_of_decode h
    exact toNat_rndField w
  · obtain rfl : r = rndField w := operandFrom_of_decode h
    exact toNat_rndField w
  · obtain rfl : n = lenField w := operandFrom_of_decode h
    exact toNat_lenField w

end Sys2Proof.Machine
end

section
/-! The lines of the assembler that carry lane words or stand for several commands (30_encoding.md R90, R91): where
the words land, and what the commands do to `S` together. -/

namespace Sys2Proof.Machine

/-- Bit `i` of vector `k` of a list of vectors written one after the other, least significant bit first. -/
theorem getD_flatMap_toBits {n : Nat} (ws : List (BitVec n)) (k : Nat) {i : Nat} (hi : i < n) :
    (ws.flatMap toBits).getD (n * k + i) false = (ws.getD k 0).getLsbD i := by
  induction ws generalizing k with
  | nil => simp
  | cons w ws ih =>
    rw [List.flatMap_cons]
    cases k with
    | zero =>
      rw [Nat.mul_zero, Nat.zero_add, List.getD_append _ _ _ _ (by rwa [length_toBits]), getD_toBits,
        List.getD_cons_zero]
    | succ k =>
      have hk : n * (k + 1) + i - n = n * k + i := by rw [Nat.mul_succ]; omega
      have hge : n ≤ n * (k + 1) + i := by rw [Nat.mul_succ]; omega
      rw [List.getD_append_right _ _ _ _ (by rwa [length_toBits]), length_toBits, hk, ih, List.getD_cons_succ]

@[simp] theorem length_laneWordBits (ws : List Lane) : (laneWordBits ws).length = 64 * ws.length := by
  simp [laneWordBits, List.length_flatMap, Nat.mul_comm]

/-- The lane registers of a state array given by its lane words (30_encoding.md R90). -/
theorem laneReg_ofBits_laneWordBits (ws : List Lane) {k : Nat} (hk : k < 25) :
    laneReg (ofBits 1600 (laneWordBits ws)) k = ws.getD k 0 :=
  BitVec.eq_of_getLsbD_eq fun z hz => by
    have hlt : 64 * k + z < 1600 := by omega
    rw [getLsbD_laneReg _ k hz, getLsbD_ofBits, decide_eq_true hlt, Bool.true_and, laneWordBits,
      getD_flatMap_toBits ws k hz]

/-- Settles O23: the 25 words are 1600 bits, so LOAD_STATE completes (`step_completes`) with the state array
whose lane registers they are (`laneReg_ofBits_laneWordBits`). -/
theorem loadedLaneWordsLandInTheirLanes : Obligations.LoadedLaneWordsLandInTheirLanes := by
  intro s w rest h0 hp
  have hlen : (laneWordBits w.toList).length = 1600 := by simp
  obtain ⟨t, hstep, ht0, htp, htS, -⟩ := step_completes h0 hp (decode_encode .loadState)
    (completes_of_din_bits (A := fun v => v) (exec_loadState _) h0 rfl hlen)
  refine ⟨t, hstep, ht0, htp, fun k => ?_⟩
  rw [htS, laneReg_ofBits_laneWordBits _ k.isLt]
  simp

/-- The command takes no DIN, answers no data and sends `S` to `F S`. -/
def Applies (i : Instr) (F : StateBits → StateBits) : Prop :=
  ∀ s, exec i s = withNoOperand s (ran s (F s.S) .none)

theorem toNat_roundField (r : Fin 24) : (roundField r).toNat = r.val := by
  rw [roundField, BitVec.toNat_ofNat]; omega

/-- The round index of an assembler line passes the check of its command (30_encoding.md R82). -/
theorem withRound_roundField (r : Fin 24) (s : State) (k : Fin 24 → Host.Outcome State Fault Refusal) :
    withRound (roundField r) s k = k r := by
  have hr := toNat_roundField r
  have hlt : (roundField r).toNat < 24 := hr ▸ r.isLt
  rw [withRound_of_lt hlt]
  exact congrArg k (Fin.ext hr)

theorem applies_iota (r : Fin 24) : Applies (.iota (roundField r)) (iota r) := fun s => by
  rw [exec_iota, withRound_roundField]

theorem applies_round (r : Fin 24) : Applies (.round (roundField r)) (keccakRound r) := fun s => by
  rw [exec_round, withRound_roundField, keccakRound]

section
variable {s : State} {rest : List HostAction} (h0 : s.fcode = 0)
include h0

theorem step_applies {i : Instr} {F : StateBits → StateBits} (hi : Applies i F)
    (hp : s.pending = .transact (transaction i .none) :: rest) :
    ∃ t, step s = .next t ∧ t.fcode = 0 ∧ t.pending = rest ∧ t.S = F s.S := by
  obtain ⟨t, hstep, ht0, htp, htS, -⟩ :=
    step_completes h0 hp (decode_encode i) (completes_of_din_none (hi _) h0 rfl)
  exact ⟨t, hstep, ht0, htp, htS⟩

/-- Commands that take no DIN, sent one after the other, apply their functions to `S` in that order. -/
theorem after_applies {cs : List (Instr × (StateBits → StateBits))} (hcs : ∀ c ∈ cs, Applies c.1 c.2)
    (hp : s.pending = cs.map (fun c => .transact (transaction c.1 .none)) ++ rest) :
    ∃ t, After cs.length s t ∧ t.fcode = 0 ∧ t.pending = rest ∧ t.S = cs.foldl (fun T c => c.2 T) s.S := by
  induction cs generalizing s with
  | nil => exact ⟨s, rfl, h0, hp, rfl⟩
  | cons c cs ih =>
    obtain ⟨hc, hcs⟩ := List.forall_mem_cons.1 hcs
    obtain ⟨u, hstep, hu0, hup, huS⟩ := step_applies h0 hc hp
    obtain ⟨t, hafter, ht0, htp, htS⟩ := ih hu0 hcs hup
    exact ⟨t, ⟨u, hstep, hafter⟩, ht0, htp, by rw [htS, huS, List.foldl_cons]⟩

end

/-- The commands of STEPS r with their functions (30_encoding.md R91). -/
def stepsCommands (r : Fin 24) : List (Instr × (StateBits → StateBits)) :=
  [(.theta, theta), (.rho, rho), (.pi, pi), (.chi, chi), (.iota (roundField r), iota r)]

theorem applies_stepsCommands (r : Fin 24) : ∀ c ∈ stepsCommands r, Applies c.1 c.2 := by
  simp only [stepsCommands, List.forall_mem_cons, List.not_mem_nil, false_imp_iff, implies_true, and_true]
  exact ⟨fun _ => rfl, fun _ => rfl, fun _ => rfl, fun _ => rfl, applies_iota r⟩

/-- Settles O38: the five commands apply the five steps in order (`after_applies`), which is what a round is. -/
theorem stepsHaveTheEffectOfRound : Obligations.StepsHaveTheEffectOfRound := by
  intro s r rest h0 hp
  obtain ⟨t, hafter, ht0, htp, htS⟩ := after_applies h0 (applies_stepsCommands r) hp
  obtain ⟨u, hstep, hu0, hup, huS⟩ :=
    step_applies (s := { s with pending := (expandLine (.round r)).map .transact ++ rest }) h0
      (applies_round r) rfl
  exact ⟨t, u, hafter, ht0, htp, hstep, hu0, hup, htS.trans huS.symm⟩

/-- The commands of ROUNDS 0, 23 with their functions (30_encoding.md R91). -/
def roundsCommands : List (Instr × (StateBits → StateBits)) :=
  (List.finRange 24).map fun r => (.round (roundField r), keccakRound r)

theorem applies_roundsCommands : ∀ c ∈ roundsCommands, Applies c.1 c.2 :=
  List.forall_mem_map.2 fun r _ => applies_round r

theorem expandLine_all_rounds :
    expandLine (.rounds 0 23) = roundsCommands.map fun c => transaction c.1 .none := by
  have hall : (List.finRange 24).filter (fun r => 0 ≤ r && r ≤ 23) = List.finRange 24 := by decide
  rw [expandLine, hall, roundsCommands, List.map_map]
  rfl

/-- Settles O39: the 24 commands apply the 24 rounds in order (`after_applies`), which is what the permutation
is. -/
theorem roundsHaveTheEffectOfPermute : Obligations.RoundsHaveTheEffectOfPermute := by
  intro s rest h0 hp
  rw [expandLine_all_rounds, List.map_map] at hp
  obtain ⟨t, hafter, ht0, htp, htS⟩ := after_applies h0 applies_roundsCommands hp
  obtain ⟨u, hstep, hu0, hup, huS⟩ :=
    step_applies (s := { s with pending := (expandLine .permute).map .transact ++ rest }) (i := .permute) h0
      (fun _ => rfl : Applies .permute keccakF) rfl
  have hfold : roundsCommands.foldl (fun T c => c.2 T) s.S = keccakF s.S := by
    rw [roundsCommands, List.foldl_map, keccakF]
  exact ⟨t, u, hafter, ht0, htp, hstep, hu0, hup, (htS.trans hfold).trans huS.symm⟩

end Sys2Proof.Machine
end

section
/-! The family of 20_memory.md, the bytes of a block: where they meet the lanes (R57). -/

namespace Sys2Proof.Machine

/-- Byte `k mod 8` of lane register `k div 8` is the byte of the state array from bit `8k` on. -/
theorem getLsbD_laneByte (A : StateBits) (k : Nat) {i : Nat} (hi : i < 8) :
    ((laneReg A (k / 8)).extractLsb' (8 * (k % 8)) 8).getLsbD i = A.getLsbD (8 * k + i) := by
  rw [BitVec.getLsbD_extractLsb', decide_eq_true hi, Bool.true_and, getLsbD_laneReg A _ (by omega)]
  exact congrArg A.getLsbD (by omega)

/-- Settles O50: bit `i` of byte `k` is bit `8k+i` of the state and of the block (`getLsbD_laneByte`,
`getD_bytesToBits`), and those are XORed. -/
theorem blockBytesMeetTheLanesInOrder : Obligations.BlockBytesMeetTheLanesInOrder := by
  intro A m _ k hk
  refine BitVec.eq_of_getLsbD_eq fun i hi => ?_
  rw [BitVec.getLsbD_xor, getLsbD_laneByte _ k hi, getLsbD_laneByte _ k hi, getLsbD_xorRate_rate A _ (by omega),
    getD_bytesToBits m k hi]

end Sys2Proof.Machine
end

section
/-! The family of 41_round_steps.md and 42_permutation.md, corner cases: the states whose bits are all the same,
which the first four round steps keep, and iota as its own inverse. -/

namespace Sys2Proof.Machine

/-- Two state arrays with the same bits are one. -/
theorem state_ext_bits {A B : StateBits} (h : ∀ x y z, bitAt A x y z = bitAt B x y z) : A = B :=
  state_ext_lanes fun x y => BitVec.eq_of_getLsbD_eq fun z hz => by
    rw [getLsbD_lane A x y ⟨z, hz⟩, getLsbD_lane B x y ⟨z, hz⟩, h]

/-- Every bit of the state array is `b`. -/
def Uniform (b : Bool) (A : StateBits) : Prop := ∀ x y z, bitAt A x y z = b

theorem uniform_zero : Uniform false 0 := fun _ _ _ => BitVec.getLsbD_zero

theorem uniform_allOnes : Uniform true (BitVec.allOnes 1600) := fun x y z => by
  rw [bitAt, BitVec.getLsbD_allOnes, decide_eq_true (bitIndex_lt x y z)]

section
variable {b : Bool} {A B : StateBits} (hA : Uniform b A)
include hA

theorem uniform_unique (hB : Uniform b B) : A = B :=
  state_ext_bits fun x y z => (hA x y z).trans (hB x y z).symm

/-- The two parities that theta adds to a bit are equal, so they cancel. -/
theorem uniform_theta : Uniform b (theta A) := fun x y z => by
  have hparity (x : Fin 5) (z : Fin 64) : (columnParity A x).getLsbD z.val = b := by
    simp only [getLsbD_columnParity, hA _ _ _, Bool.xor_self, Bool.xor_false]
  rw [bitAt_theta, hparity, hparity, hA, Bool.xor_self, Bool.xor_false]

theorem uniform_rho : Uniform b (rho A) := fun x y z => by rw [bitAt_rho, hA]

theorem uniform_pi : Uniform b (pi A) := fun x y z => by
  rw [← getLsbD_lane, lane_pi, getLsbD_lane, hA]

/-- What chi adds to a bit needs a 0 and a 1 beside it. -/
theorem uniform_chi : Uniform b (chi A) := fun x y z => by
  rw [bitAt_chi, hA, hA, hA, Bool.not_and_self, Bool.xor_false]

end

theorem iota_iota (r : Fin 24) (A : StateBits) : iota r (iota r A) = A := by
  refine state_ext_lanes fun x y => ?_
  by_cases h : x = 0 ∧ y = 0
  · obtain ⟨rfl, rfl⟩ := h
    rw [lane_iota_origin, lane_iota_origin, BitVec.xor_assoc, BitVec.xor_self, BitVec.xor_zero]
  · rw [lane_iota_other _ r h, lane_iota_other _ r h]

/-- A step that keeps uniform states has the all-zero and the all-one state as fixed points. -/
theorem fixedPoints_of_uniform {F : StateBits → StateBits} (hF : ∀ {b A}, Uniform b A → Uniform b (F A)) :
    F 0 = 0 ∧ F (BitVec.allOnes 1600) = BitVec.allOnes 1600 :=
  ⟨uniform_unique (hF uniform_zero) uniform_zero, uniform_unique (hF uniform_allOnes) uniform_allOnes⟩

/-- Settles O33: the first four steps keep uniform states (`fixedPoints_of_uniform`); iota is `iota_iota`. -/
theorem fixedPointsAndInvolutionOfTheSteps : Obligations.FixedPointsAndInvolutionOfTheSteps := by
  refine ⟨fun F hF => ?_, iota_iota⟩
  obtain rfl | rfl | rfl | rfl : F = theta ∨ F = rho ∨ F = pi ∨ F = chi := by simpa using hF
  · exact fixedPoints_of_uniform uniform_theta
  · exact fixedPoints_of_uniform uniform_rho
  · exact fixedPoints_of_uniform uniform_pi
  · exact fixedPoints_of_uniform uniform_chi

/-- A round of the all-zero state is its iota alone. -/
theorem keccakRound_zero (r : Fin 24) : keccakRound r 0 = iota r 0 := by
  have hzero : chi (pi (rho (theta 0))) = 0 :=
    uniform_unique (uniform_chi (uniform_pi (uniform_rho (uniform_theta uniform_zero)))) uniform_zero
  rw [keccakRound, hzero]

/-- Settles O35: only iota changes the all-zero state (`keccakRound_zero`). -/
theorem roundOfTheZeroState : Obligations.RoundOfTheZeroState := by
  intro r x y
  have hlane : lane 0 x y = 0 := laneReg_zero _
  rw [keccakRound_zero]
  split
  next h =>
    obtain ⟨rfl, rfl⟩ := h
    rw [lane_iota_origin, hlane]
    exact BitVec.zero_xor
  next h => rw [lane_iota_other 0 r h, hlane]

end Sys2Proof.Machine
end

section
/-! The family of 42_permutation.md, injectivity: each round step loses nothing, so neither do a round and the
permutation. Theta is the step that needs an argument: it can be undone because its map on the column parities
can, and that map becomes simple when it is squared often enough. -/

namespace Sys2Proof.Machine

open Function (Injective)

section
variable {G : Type} [AddCommGroup G] (p q : G)

/-- Every bit of an array over `G` XORed with the two bits at the distances `p` and `q` from it. -/
def addNeighbours (C : G → Bool) (v : G) : Bool := C v ^^ (C (v + p) ^^ C (v + q))

theorem xor_cancel_of_square : ∀ a b c d e f : Bool,
    ((a ^^ (b ^^ c)) ^^ ((b ^^ (d ^^ e)) ^^ (c ^^ (e ^^ f)))) = (a ^^ (d ^^ f)) := by decide

/-- Twice is once at the double distances: the bits at `p`, `q` and `p + q` are met twice and cancel. -/
theorem addNeighbours_twice (C : G → Bool) :
    addNeighbours p q (addNeighbours p q C) = addNeighbours (p + p) (q + q) C := by
  funext v
  have hcross : v + q + p = v + p + q := add_right_comm v q p
  simp only [addNeighbours, hcross, xor_cancel_of_square, add_assoc]

/-- The map is injective if the one at the distances doubled `n` times, which is a power of it, is. -/
theorem addNeighbours_injective_of_pow (n : Nat) (h : Injective (addNeighbours (2 ^ n • p) (2 ^ n • q))) :
    Injective (addNeighbours p q) := by
  induction n with
  | zero => simpa using h
  | succ n ih =>
    have hdouble (d : G) : 2 ^ (n + 1) • d = 2 ^ n • d + 2 ^ n • d := by rw [pow_succ, mul_two, add_nsmul]
    rw [hdouble, hdouble] at h
    have hsquare : addNeighbours (2 ^ n • p) (2 ^ n • q) ∘ addNeighbours (2 ^ n • p) (2 ^ n • q) =
        addNeighbours (2 ^ n • p + 2 ^ n • p) (2 ^ n • q + 2 ^ n • q) := funext (addNeighbours_twice _ _)
    exact ih (Injective.of_comp (hsquare ▸ h))

end

/-- Where a column stands: its `x` and its `z` (41_round_steps.md R131). -/
abbrev Column := Fin 5 × Fin 64

theorem xor_cancel_of_cycle : ∀ a b c d e : Bool,
    ((a ^^ (b ^^ e)) ^^ ((c ^^ (d ^^ b)) ^^ (d ^^ (e ^^ c)))) = a := by decide

/-- Adding the two neighbours on a cycle of five columns is undone by adding the two columns farther away. -/
theorem addNeighbours_cycle (C : Column → Bool) :
    addNeighbours (2, 0) (3, 0) (addNeighbours (1, 0) (4, 0) C) = C := by
  funext v
  have h21 : v + (2, 0) + (1, 0) = v + (3, 0) := add_assoc v _ _
  have h24 : v + (2, 0) + (4, 0) = v + (1, 0) := add_assoc v _ _
  have h31 : v + (3, 0) + (1, 0) = v + (4, 0) := add_assoc v _ _
  have h34 : v + (3, 0) + (4, 0) = v + (2, 0) := add_assoc v _ _
  simp only [addNeighbours, h21, h24, h31, h34, xor_cancel_of_cycle]

/-- Doubled six times, the distances of theta's two parities lie on the cycle of five columns: 64 is 0 mod 64,
and 64 is -1 mod 5. -/
theorem addNeighbours_theta_injective : Injective (addNeighbours ((-1, 0) : Column) (1, -1)) := by
  have hp : 2 ^ 6 • ((-1, 0) : Column) = (1, 0) := by decide
  have hq : 2 ^ 6 • ((1, -1) : Column) = (4, 0) := by decide
  refine addNeighbours_injective_of_pow _ _ 6 ?_
  rw [hp, hq]
  exact Function.LeftInverse.injective addNeighbours_cycle

/-- The parity of every column (41_round_steps.md R131). -/
def parityBits (A : StateBits) (v : Column) : Bool := (columnParity A v.1).getLsbD v.2.val

/-- Theta adds to a bit the parities of two other columns. -/
theorem bitAt_theta_parityBits (A : StateBits) (x y : Fin 5) (z : Fin 64) :
    bitAt (theta A) x y z =
      (bitAt A x y z ^^ (parityBits A ((x, z) + (-1, 0)) ^^ parityBits A ((x, z) + (1, -1)))) := by
  rw [bitAt_theta, parityBits, parityBits, Prod.mk_add_mk, Prod.mk_add_mk, add_zero, ← sub_eq_add_neg,
    ← sub_eq_add_neg]

theorem xor_five_times : ∀ a b c d e f : Bool,
    ((a ^^ f) ^^ ((b ^^ f) ^^ ((c ^^ f) ^^ ((d ^^ f) ^^ (e ^^ f))))) = ((a ^^ (b ^^ (c ^^ (d ^^ e)))) ^^ f) := by
  decide

/-- A column has five bits, so theta adds the two parities to the parity of the column too. -/
theorem parityBits_theta (A : StateBits) :
    parityBits (theta A) = addNeighbours (-1, 0) (1, -1) (parityBits A) := by
  funext ⟨x, z⟩
  have hcolumn (A : StateBits) : parityBits A (x, z) = (bitAt A x 0 z ^^ (bitAt A x 1 z ^^
    (bitAt A x 2 z ^^ (bitAt A x 3 z ^^ bitAt A x 4 z)))) := getLsbD_columnParity A x z
  rw [hcolumn, addNeighbours, hcolumn]
  simp only [bitAt_theta_parityBits, xor_five_times]

theorem theta_injective : Injective theta := by
  intro A B h
  have hparity : parityBits A = parityBits B :=
    addNeighbours_theta_injective (by rw [← parityBits_theta, ← parityBits_theta, h])
  refine state_ext_bits fun x y z => ?_
  have hbit : bitAt (theta A) x y z = bitAt (theta B) x y z := by rw [h]
  rwa [bitAt_theta_parityBits, bitAt_theta_parityBits, hparity, Bool.xor_left_inj] at hbit

/-- Rho moves the bit `z` of a lane to the place `z + offset(x, y)` (41_round_steps.md R134). -/
theorem bitAt_rho_moved (A : StateBits) (x y : Fin 5) (z : Fin 64) :
    bitAt (rho A) x y (z + Fin.ofNat 64 (offset x y)) = bitAt A x y z := by
  rw [bitAt_rho, add_sub_cancel_right]

theorem rho_injective : Injective rho := fun A B h =>
  state_ext_bits fun x y z => by rw [← bitAt_rho_moved, h, bitAt_rho_moved]

theorem pi_injective : Injective pi := fun A B h =>
  state_ext_lanes fun x y => by rw [← lane_pi_destination, h, lane_pi_destination]

theorem chi_row_undone : ∀ a b c d e : Bool,
    ((a ^^ (!b && c)) ^^ (!(b ^^ (!c && d)) && ((c ^^ (!d && e)) ^^ (!(d ^^ (!e && a)) && (e ^^ (!a && b)))))) =
      a := by
  decide

/-- The bits of a row before chi from those after it. -/
theorem bitAt_of_chi (A : StateBits) (x y : Fin 5) (z : Fin 64) :
    (bitAt (chi A) x y z ^^ (!bitAt (chi A) (x + 1) y z && (bitAt (chi A) (x + 2) y z ^^
      (!bitAt (chi A) (x + 3) y z && bitAt (chi A) (x + 4) y z)))) = bitAt A x y z := by
  have hrow : ∀ x : Fin 5, x + 1 + 1 = x + 2 ∧ x + 1 + 2 = x + 3 ∧ x + 2 + 1 = x + 3 ∧ x + 2 + 2 = x + 4 ∧
    x + 3 + 1 = x + 4 ∧ x + 3 + 2 = x ∧ x + 4 + 1 = x ∧ x + 4 + 2 = x + 1 := by decide
  simp only [bitAt_chi, hrow, chi_row_undone]

theorem chi_injective : Injective chi := fun A B h =>
  state_ext_bits fun x y z => by rw [← bitAt_of_chi A, h, bitAt_of_chi]

theorem iota_injective (r : Fin 24) : Injective (iota r) := Function.LeftInverse.injective (iota_iota r)

theorem keccakRound_injective (r : Fin 24) : Injective (keccakRound r) :=
  (iota_injective r).comp (chi_injective.comp (pi_injective.comp (rho_injective.comp theta_injective)))

/-- Settles O37: by induction on the rounds, each of which is injective (`keccakRound_injective`). -/
theorem keccakFIsInjective : Obligations.KeccakFIsInjective := by
  suffices h : ∀ rounds : List (Fin 24), Injective fun A => rounds.foldl (fun T r => keccakRound r T) A from
    fun A B hAB => h (List.finRange 24) hAB
  intro rounds
  induction rounds with
  | nil => exact fun _ _ => id
  | cons r rounds ih => exact ih.comp (keccakRound_injective r)

end Sys2Proof.Machine
end
